-- ==== Sys2Proof/Word.lean ====
section
/-! DEFINITION. The words of the machine: XLEN is 32 (R7), every register value, address and immediate is a
32-bit vector (R9), a memory cell holds one byte (R33), and disassembly text is ASCII, one character a place (R287). -/

namespace Sys2Proof

/-- `bits32` (R9): a register value, an address, an immediate, an instruction word. -/
abbrev Word := BitVec 32

/-- 8 bits: a memory byte, an input or output character (R40, R251, R253). -/
abbrev Byte := BitVec 8

/-- 16 bits: the half of a half access (R40). -/
abbrev Half := BitVec 16

/-- Disassembler text, as its list of characters (R270, R287). -/
abbrev Text := List Char

/-- Registers `x0` to `x31`, by their index (R20). -/
abbrev Reg := Fin 32

end Sys2Proof
end

