-- ==== Sys2Proof/Machine/Flags.lean ====
section
/-! DEFINITION. The hardware has no flags and no condition codes (R28): no instruction sets one. What stands here is
what other hardware computes through flags: the comparisons of R10, used by slt, sltu, their immediate forms and the
branches. -/

namespace Sys2Proof.Machine

/-- `a <s b` (R10). -/
def lessSigned (a b : Word) : Bool := decide (a.toInt < b.toInt)

/-- `a <u b` (R10). -/
def lessUnsigned (a b : Word) : Bool := decide (a.toNat < b.toNat)

/-- `a >=s b` (R10). -/
def geSigned (a b : Word) : Bool := decide (b.toInt ≤ a.toInt)

/-- `a >=u b` (R10). -/
def geUnsigned (a b : Word) : Bool := decide (b.toNat ≤ a.toNat)

/-- `c ? 1 : 0` (R134, R135). -/
def oneIf (c : Bool) : Word := if c then 1#32 else 0#32

end Sys2Proof.Machine
end

