-- ==== Sys2Proof/Syntax.lean ====
section
/-! DEFINITION. The instruction set (R2): one constructor for each of the 44 rows of spec/opcode_table.json, in the
table's order, with the operands its encoding carries (R62). An immediate is kept as the raw field of its format
(R63 to R67), before sign extension: 12 bits for I and S, 13 bits with bit 0 zero for B, 20 bits for U, 21 bits with
bit 0 zero for J. The I-type shifts keep the whole 12-bit immediate, the ignored bits too (R170), so that a word and
its instruction determine each other. The Unknown class (R80) is no instruction: see Decode.lean. -/

namespace Sys2Proof

inductive Instr where
  /-- R131 -/
  | add (rd rs1 rs2 : Reg)
  /-- R132 -/
  | sub (rd rs1 rs2 : Reg)
  /-- R133 -/
  | sll (rd rs1 rs2 : Reg)
  /-- R134 -/
  | slt (rd rs1 rs2 : Reg)
  /-- R135 -/
  | sltu (rd rs1 rs2 : Reg)
  /-- R136 -/
  | xor (rd rs1 rs2 : Reg)
  /-- R137 -/
  | srl (rd rs1 rs2 : Reg)
  /-- R138 -/
  | sra (rd rs1 rs2 : Reg)
  /-- R139 -/
  | or (rd rs1 rs2 : Reg)
  /-- R140 -/
  | and (rd rs1 rs2 : Reg)
  /-- R151 -/
  | mul (rd rs1 rs2 : Reg)
  /-- R152 -/
  | mulh (rd rs1 rs2 : Reg)
  /-- R153 -/
  | div (rd rs1 rs2 : Reg)
  /-- R154 -/
  | divu (rd rs1 rs2 : Reg)
  /-- R155 -/
  | rem (rd rs1 rs2 : Reg)
  /-- R156 -/
  | remu (rd rs1 rs2 : Reg)
  /-- R171 -/
  | addi (rd rs1 : Reg) (imm : BitVec 12)
  /-- R172 -/
  | slti (rd rs1 : Reg) (imm : BitVec 12)
  /-- R173 -/
  | sltiu (rd rs1 : Reg) (imm : BitVec 12)
  /-- R174 -/
  | xori (rd rs1 : Reg) (imm : BitVec 12)
  /-- R175 -/
  | ori (rd rs1 : Reg) (imm : BitVec 12)
  /-- R176 -/
  | andi (rd rs1 : Reg) (imm : BitVec 12)
  /-- R177 -/
  | slli (rd rs1 : Reg) (imm : BitVec 12)
  /-- R178 -/
  | srli (rd rs1 : Reg) (imm : BitVec 12)
  /-- R179 -/
  | srai (rd rs1 : Reg) (imm : BitVec 12)
  /-- R191 -/
  | lb (rd rs1 : Reg) (imm : BitVec 12)
  /-- R192 -/
  | lh (rd rs1 : Reg) (imm : BitVec 12)
  /-- R193 -/
  | lw (rd rs1 : Reg) (imm : BitVec 12)
  /-- R194 -/
  | lbu (rd rs1 : Reg) (imm : BitVec 12)
  /-- R195 -/
  | lhu (rd rs1 : Reg) (imm : BitVec 12)
  /-- R196; `rs1` is the base, `rs2` the data -/
  | sb (rs1 rs2 : Reg) (imm : BitVec 12)
  /-- R197; `rs1` is the base, `rs2` the data -/
  | sh (rs1 rs2 : Reg) (imm : BitVec 12)
  /-- R198; `rs1` is the base, `rs2` the data -/
  | sw (rs1 rs2 : Reg) (imm : BitVec 12)
  /-- R211 -/
  | beq (rs1 rs2 : Reg) (offset : BitVec 13)
  /-- R212 -/
  | bne (rs1 rs2 : Reg) (offset : BitVec 13)
  /-- R213 -/
  | blt (rs1 rs2 : Reg) (offset : BitVec 13)
  /-- R214 -/
  | bge (rs1 rs2 : Reg) (offset : BitVec 13)
  /-- R215 -/
  | bltu (rs1 rs2 : Reg) (offset : BitVec 13)
  /-- R216 -/
  | bgeu (rs1 rs2 : Reg) (offset : BitVec 13)
  /-- R231 -/
  | lui (rd : Reg) (imm20 : BitVec 20)
  /-- R232 -/
  | auipc (rd : Reg) (imm20 : BitVec 20)
  /-- R241 -/
  | jal (rd : Reg) (offset : BitVec 21)
  /-- R242 -/
  | jalr (rd rs1 : Reg) (imm : BitVec 12)
  /-- R250 -/
  | ecall
deriving DecidableEq, Repr

/-- The register an instruction names as its destination, where it has one (R23). `ecall` names none: its
selector-1 service writes x10. -/
def Instr.dest? : Instr → Option Reg
  | .add rd _ _ => some rd
  | .sub rd _ _ => some rd
  | .sll rd _ _ => some rd
  | .slt rd _ _ => some rd
  | .sltu rd _ _ => some rd
  | .xor rd _ _ => some rd
  | .srl rd _ _ => some rd
  | .sra rd _ _ => some rd
  | .or rd _ _ => some rd
  | .and rd _ _ => some rd
  | .mul rd _ _ => some rd
  | .mulh rd _ _ => some rd
  | .div rd _ _ => some rd
  | .divu rd _ _ => some rd
  | .rem rd _ _ => some rd
  | .remu rd _ _ => some rd
  | .addi rd _ _ => some rd
  | .slti rd _ _ => some rd
  | .sltiu rd _ _ => some rd
  | .xori rd _ _ => some rd
  | .ori rd _ _ => some rd
  | .andi rd _ _ => some rd
  | .slli rd _ _ => some rd
  | .srli rd _ _ => some rd
  | .srai rd _ _ => some rd
  | .lb rd _ _ => some rd
  | .lh rd _ _ => some rd
  | .lw rd _ _ => some rd
  | .lbu rd _ _ => some rd
  | .lhu rd _ _ => some rd
  | .sb _ _ _ => none
  | .sh _ _ _ => none
  | .sw _ _ _ => none
  | .beq _ _ _ => none
  | .bne _ _ _ => none
  | .blt _ _ _ => none
  | .bge _ _ _ => none
  | .bltu _ _ _ => none
  | .bgeu _ _ _ => none
  | .lui rd _ => some rd
  | .auipc rd _ => some rd
  | .jal rd _ => some rd
  | .jalr rd _ _ => some rd
  | .ecall => none

end Sys2Proof
end

