-- ==== Sys2Proof/WellFormed.lean ====
section
/-! DEFINITION. What an instruction term must satisfy to have an encoding. The operand types already bound register
numbers and immediates to their fields. Three facts are left: a branch or jal offset is even, because bit 0 of
`imm_b` and `imm_j` is always 0 (R65, R67), and bit 10 of a right shift's immediate says which of the two right shifts
it is (R73). -/

namespace Sys2Proof

/-- Bit 0 of a B-type offset is 0 (R65). -/
def evenB (offset : BitVec 13) : Bool := !offset.getLsbD 0

/-- Bit 0 of a J-type offset is 0 (R67). -/
def evenJ (offset : BitVec 21) : Bool := !offset.getLsbD 0

/-- `imm_i[10]`, the bit that selects the arithmetic right shift (R73). -/
def arithmeticBit (imm : BitVec 12) : Bool := imm.getLsbD 10

def Instr.wellFormed : Instr → Bool
  | .add _ _ _ => true
  | .sub _ _ _ => true
  | .sll _ _ _ => true
  | .slt _ _ _ => true
  | .sltu _ _ _ => true
  | .xor _ _ _ => true
  | .srl _ _ _ => true
  | .sra _ _ _ => true
  | .or _ _ _ => true
  | .and _ _ _ => true
  | .mul _ _ _ => true
  | .mulh _ _ _ => true
  | .div _ _ _ => true
  | .divu _ _ _ => true
  | .rem _ _ _ => true
  | .remu _ _ _ => true
  | .addi _ _ _ => true
  | .slti _ _ _ => true
  | .sltiu _ _ _ => true
  | .xori _ _ _ => true
  | .ori _ _ _ => true
  | .andi _ _ _ => true
  | .slli _ _ _ => true
  | .srli _ _ imm => !arithmeticBit imm
  | .srai _ _ imm => arithmeticBit imm
  | .lb _ _ _ => true
  | .lh _ _ _ => true
  | .lw _ _ _ => true
  | .lbu _ _ _ => true
  | .lhu _ _ _ => true
  | .sb _ _ _ => true
  | .sh _ _ _ => true
  | .sw _ _ _ => true
  | .beq _ _ offset => evenB offset
  | .bne _ _ offset => evenB offset
  | .blt _ _ offset => evenB offset
  | .bge _ _ offset => evenB offset
  | .bltu _ _ offset => evenB offset
  | .bgeu _ _ offset => evenB offset
  | .lui _ _ => true
  | .auipc _ _ => true
  | .jal _ offset => evenJ offset
  | .jalr _ _ _ => true
  | .ecall => true

end Sys2Proof
end

