-- ==== Sys2Proof/Decode.lean ====
section
/-! DEFINITION. The one decoder (R69): field and immediate extraction (R61 to R68), `decode` (R81), total on every
word, which names the class Unknown (R80) for every word outside the opcode table; then the encoder, the opcode table
as data, and `decodeTableWord`. Numeric opcode, funct3 and funct7 values are those of R70 to R79 (log entry 12). -/

namespace Sys2Proof

/-! ### Fields (R61) -/

def opcode (w : Word) : BitVec 7 := w.extractLsb' 0 7
def rdOf (w : Word) : Reg := (w.extractLsb' 7 5).toFin
def funct3 (w : Word) : BitVec 3 := w.extractLsb' 12 3
def rs1Of (w : Word) : Reg := (w.extractLsb' 15 5).toFin
def rs2Of (w : Word) : Reg := (w.extractLsb' 20 5).toFin
def funct7 (w : Word) : BitVec 7 := w.extractLsb' 25 7

/-! ### Raw immediate fields, as each format scatters them (R62) -/

/-- A field placed with its bit 0 at bit `lo` of a wider vector; the formulas OR placed fields (R65, R67). -/
def place {k : Nat} (n lo : Nat) (field : BitVec k) : BitVec n := field.setWidth n <<< lo

/-- `w[31:20]` (R63). -/
def rawI (w : Word) : BitVec 12 := w.extractLsb' 20 12

/-- `w[31:25] ++ w[11:7]` (R64). -/
def rawS (w : Word) : BitVec 12 := place 12 5 (w.extractLsb' 25 7) ||| place 12 0 (w.extractLsb' 7 5)

/-- `w[31] ++ w[7] ++ w[30:25] ++ w[11:8] ++ 0` (R65). -/
def rawB (w : Word) : BitVec 13 :=
  place 13 12 (w.extractLsb' 31 1) ||| place 13 11 (w.extractLsb' 7 1) ||| place 13 5 (w.extractLsb' 25 6) |||
    place 13 1 (w.extractLsb' 8 4)

/-- `w[31:12]` (R66). -/
def rawU (w : Word) : BitVec 20 := w.extractLsb' 12 20

/-- `w[31] ++ w[19:12] ++ w[20] ++ w[30:21] ++ 0` (R67). -/
def rawJ (w : Word) : BitVec 21 :=
  place 21 20 (w.extractLsb' 31 1) ||| place 21 12 (w.extractLsb' 12 8) ||| place 21 11 (w.extractLsb' 20 1) |||
    place 21 1 (w.extractLsb' 21 10)

/-! ### From a raw field to the 32-bit immediate (R63 to R67, R68) -/

/-- Sign extension of a 12-bit I or S field (R63, R64). -/
def sext12 (imm : BitVec 12) : Word := imm.signExtend 32

/-- Sign extension of a 13-bit B offset (R65). -/
def sext13 (offset : BitVec 13) : Word := offset.signExtend 32

/-- The U field above twelve zero bits (R66). -/
def upper20 (imm20 : BitVec 20) : Word := place 32 12 imm20

/-- Sign extension of a 21-bit J offset (R67). -/
def sext21 (offset : BitVec 21) : Word := offset.signExtend 32

def immI (w : Word) : Word := sext12 (rawI w)
def immS (w : Word) : Word := sext12 (rawS w)
def immB (w : Word) : Word := sext13 (rawB w)
def immU (w : Word) : Word := upper20 (rawU w)
def immJ (w : Word) : Word := sext21 (rawJ w)

/-! ### The decoder (R70 to R81) -/

/-- What a word decodes to (R81): an instruction, or the class Unknown (R80). -/
inductive Decoded where
  | instr (i : Instr)
  | unknown
deriving DecidableEq, Repr

/-- OP (0x33), decoded on (funct7, funct3), strictly (R71). -/
def decodeOp (w : Word) : Decoded :=
  match (funct7 w).toNat, (funct3 w).toNat with
  | 0x00, 0 => .instr (.add (rdOf w) (rs1Of w) (rs2Of w))
  | 0x20, 0 => .instr (.sub (rdOf w) (rs1Of w) (rs2Of w))
  | 0x00, 1 => .instr (.sll (rdOf w) (rs1Of w) (rs2Of w))
  | 0x00, 2 => .instr (.slt (rdOf w) (rs1Of w) (rs2Of w))
  | 0x00, 3 => .instr (.sltu (rdOf w) (rs1Of w) (rs2Of w))
  | 0x00, 4 => .instr (.xor (rdOf w) (rs1Of w) (rs2Of w))
  | 0x00, 5 => .instr (.srl (rdOf w) (rs1Of w) (rs2Of w))
  | 0x20, 5 => .instr (.sra (rdOf w) (rs1Of w) (rs2Of w))
  | 0x00, 6 => .instr (.or (rdOf w) (rs1Of w) (rs2Of w))
  | 0x00, 7 => .instr (.and (rdOf w) (rs1Of w) (rs2Of w))
  | 0x01, 0 => .instr (.mul (rdOf w) (rs1Of w) (rs2Of w))
  | 0x01, 1 => .instr (.mulh (rdOf w) (rs1Of w) (rs2Of w))
  | 0x01, 4 => .instr (.div (rdOf w) (rs1Of w) (rs2Of w))
  | 0x01, 5 => .instr (.divu (rdOf w) (rs1Of w) (rs2Of w))
  | 0x01, 6 => .instr (.rem (rdOf w) (rs1Of w) (rs2Of w))
  | 0x01, 7 => .instr (.remu (rdOf w) (rs1Of w) (rs2Of w))
  | _, _ => .unknown

/-- OP-IMM (0x13), decoded on funct3, and on `imm_i[10]` for the right shifts; no word is Unknown (R73). -/
def decodeOpImm (w : Word) : Decoded :=
  match (funct3 w).toNat with
  | 0 => .instr (.addi (rdOf w) (rs1Of w) (rawI w))
  | 1 => .instr (.slli (rdOf w) (rs1Of w) (rawI w))
  | 2 => .instr (.slti (rdOf w) (rs1Of w) (rawI w))
  | 3 => .instr (.sltiu (rdOf w) (rs1Of w) (rawI w))
  | 4 => .instr (.xori (rdOf w) (rs1Of w) (rawI w))
  | 5 =>
    if arithmeticBit (rawI w) then .instr (.srai (rdOf w) (rs1Of w) (rawI w))
    else .instr (.srli (rdOf w) (rs1Of w) (rawI w))
  | 6 => .instr (.ori (rdOf w) (rs1Of w) (rawI w))
  | _ => .instr (.andi (rdOf w) (rs1Of w) (rawI w))

/-- LOAD (0x03), decoded on funct3 (R74). -/
def decodeLoad (w : Word) : Decoded :=
  match (funct3 w).toNat with
  | 0 => .instr (.lb (rdOf w) (rs1Of w) (rawI w))
  | 1 => .instr (.lh (rdOf w) (rs1Of w) (rawI w))
  | 2 => .instr (.lw (rdOf w) (rs1Of w) (rawI w))
  | 4 => .instr (.lbu (rdOf w) (rs1Of w) (rawI w))
  | 5 => .instr (.lhu (rdOf w) (rs1Of w) (rawI w))
  | _ => .unknown

/-- STORE (0x23), decoded on funct3 (R75). -/
def decodeStore (w : Word) : Decoded :=
  match (funct3 w).toNat with
  | 0 => .instr (.sb (rs1Of w) (rs2Of w) (rawS w))
  | 1 => .instr (.sh (rs1Of w) (rs2Of w) (rawS w))
  | 2 => .instr (.sw (rs1Of w) (rs2Of w) (rawS w))
  | _ => .unknown

/-- BRANCH (0x63), decoded on funct3; 2 and 3 are Unknown (R76). -/
def decodeBranch (w : Word) : Decoded :=
  match (funct3 w).toNat with
  | 0 => .instr (.beq (rs1Of w) (rs2Of w) (rawB w))
  | 1 => .instr (.bne (rs1Of w) (rs2Of w) (rawB w))
  | 4 => .instr (.blt (rs1Of w) (rs2Of w) (rawB w))
  | 5 => .instr (.bge (rs1Of w) (rs2Of w) (rawB w))
  | 6 => .instr (.bltu (rs1Of w) (rs2Of w) (rawB w))
  | 7 => .instr (.bgeu (rs1Of w) (rs2Of w) (rawB w))
  | _ => .unknown

/-- JALR (0x67): jalr when funct3 is 0 (R78). -/
def decodeJalr (w : Word) : Decoded :=
  if (funct3 w).toNat = 0 then .instr (.jalr (rdOf w) (rs1Of w) (rawI w)) else .unknown

/-- SYSTEM (0x73): ecall is one whole word (R79). -/
def decodeSystem (w : Word) : Decoded :=
  if w = 0x00000073#32 then .instr .ecall else .unknown

/-- The decoder (R81), total: a word is exactly one of the 44 instructions or Unknown. -/
def decode (w : Word) : Decoded :=
  match (opcode w).toNat with
  | 0x33 => decodeOp w
  | 0x13 => decodeOpImm w
  | 0x03 => decodeLoad w
  | 0x23 => decodeStore w
  | 0x63 => decodeBranch w
  | 0x37 => .instr (.lui (rdOf w) (rawU w))
  | 0x17 => .instr (.auipc (rdOf w) (rawU w))
  | 0x6F => .instr (.jal (rdOf w) (rawJ w))
  | 0x67 => decodeJalr w
  | 0x73 => decodeSystem w
  | _ => .unknown

/-! ### From bytes (R42, R60) -/

/-- Why bytes give no instruction: the word is Unknown (R80), or fewer than the four bytes of a word are left
(R60; the fetch itself always reads four). -/
inductive DecodeReject where
  | unknownWord (w : Word)
  | tooFewBytes (have_ : Nat)
deriving DecidableEq, Repr

/-- The word of four bytes, lowest address first: little-endian (R42). -/
def wordOfBytes (b0 b1 b2 b3 : Byte) : Word :=
  place 32 24 b3 ||| place 32 16 b2 ||| place 32 8 b1 ||| place 32 0 b0

/-- The four bytes of a word as memory holds them, lowest address first (R42). -/
def bytesOfWord (w : Word) : List Byte :=
  [w.extractLsb' 0 8, w.extractLsb' 8 8, w.extractLsb' 16 8, w.extractLsb' 24 8]

/-- The instruction at the front of a list of bytes, with the rest of the list. -/
def decodeBytes : List Byte → Except DecodeReject (Instr × List Byte)
  | b0 :: b1 :: b2 :: b3 :: rest =>
    match decode (wordOfBytes b0 b1 b2 b3) with
    | .instr i => .ok (i, rest)
    | .unknown => .error (.unknownWord (wordOfBytes b0 b1 b2 b3))
  | short => .error (.tooFewBytes short.length)

/-! ### The encoder, from the same tables (R62, R70 to R79) -/

/-- A register number as its 5-bit field (R61). -/
def regBits (r : Reg) : BitVec 5 := BitVec.ofFin r

/-- R-type layout (R62). -/
def encodeR (f7 : BitVec 7) (f3 : BitVec 3) (op : BitVec 7) (rd rs1 rs2 : Reg) : Word :=
  place 32 25 f7 ||| place 32 20 (regBits rs2) ||| place 32 15 (regBits rs1) ||| place 32 12 f3 |||
    place 32 7 (regBits rd) ||| place 32 0 op

/-- I-type layout (R62). -/
def encodeI (f3 : BitVec 3) (op : BitVec 7) (rd rs1 : Reg) (imm : BitVec 12) : Word :=
  place 32 20 imm ||| place 32 15 (regBits rs1) ||| place 32 12 f3 ||| place 32 7 (regBits rd) ||| place 32 0 op

/-- S-type layout (R62). -/
def encodeS (f3 : BitVec 3) (op : BitVec 7) (rs1 rs2 : Reg) (imm : BitVec 12) : Word :=
  place 32 25 (imm.extractLsb' 5 7) ||| place 32 20 (regBits rs2) ||| place 32 15 (regBits rs1) ||| place 32 12 f3 |||
    place 32 7 (imm.extractLsb' 0 5) ||| place 32 0 op

/-- B-type layout (R62). -/
def encodeB (f3 : BitVec 3) (op : BitVec 7) (rs1 rs2 : Reg) (offset : BitVec 13) : Word :=
  place 32 31 (offset.extractLsb' 12 1) ||| place 32 25 (offset.extractLsb' 5 6) ||| place 32 20 (regBits rs2) |||
    place 32 15 (regBits rs1) ||| place 32 12 f3 ||| place 32 8 (offset.extractLsb' 1 4) |||
    place 32 7 (offset.extractLsb' 11 1) ||| place 32 0 op

/-- U-type layout (R62). -/
def encodeU (op : BitVec 7) (rd : Reg) (imm20 : BitVec 20) : Word :=
  place 32 12 imm20 ||| place 32 7 (regBits rd) ||| place 32 0 op

/-- J-type layout (R62). -/
def encodeJ (op : BitVec 7) (rd : Reg) (offset : BitVec 21) : Word :=
  place 32 31 (offset.extractLsb' 20 1) ||| place 32 21 (offset.extractLsb' 1 10) |||
    place 32 20 (offset.extractLsb' 11 1) ||| place 32 12 (offset.extractLsb' 12 8) ||| place 32 7 (regBits rd) |||
    place 32 0 op

/-- The word of an instruction. -/
def encode : Instr → Word
  | .add rd rs1 rs2 => encodeR 0x00#7 0#3 0x33#7 rd rs1 rs2
  | .sub rd rs1 rs2 => encodeR 0x20#7 0#3 0x33#7 rd rs1 rs2
  | .sll rd rs1 rs2 => encodeR 0x00#7 1#3 0x33#7 rd rs1 rs2
  | .slt rd rs1 rs2 => encodeR 0x00#7 2#3 0x33#7 rd rs1 rs2
  | .sltu rd rs1 rs2 => encodeR 0x00#7 3#3 0x33#7 rd rs1 rs2
  | .xor rd rs1 rs2 => encodeR 0x00#7 4#3 0x33#7 rd rs1 rs2
  | .srl rd rs1 rs2 => encodeR 0x00#7 5#3 0x33#7 rd rs1 rs2
  | .sra rd rs1 rs2 => encodeR 0x20#7 5#3 0x33#7 rd rs1 rs2
  | .or rd rs1 rs2 => encodeR 0x00#7 6#3 0x33#7 rd rs1 rs2
  | .and rd rs1 rs2 => encodeR 0x00#7 7#3 0x33#7 rd rs1 rs2
  | .mul rd rs1 rs2 => encodeR 0x01#7 0#3 0x33#7 rd rs1 rs2
  | .mulh rd rs1 rs2 => encodeR 0x01#7 1#3 0x33#7 rd rs1 rs2
  | .div rd rs1 rs2 => encodeR 0x01#7 4#3 0x33#7 rd rs1 rs2
  | .divu rd rs1 rs2 => encodeR 0x01#7 5#3 0x33#7 rd rs1 rs2
  | .rem rd rs1 rs2 => encodeR 0x01#7 6#3 0x33#7 rd rs1 rs2
  | .remu rd rs1 rs2 => encodeR 0x01#7 7#3 0x33#7 rd rs1 rs2
  | .addi rd rs1 imm => encodeI 0#3 0x13#7 rd rs1 imm
  | .slti rd rs1 imm => encodeI 2#3 0x13#7 rd rs1 imm
  | .sltiu rd rs1 imm => encodeI 3#3 0x13#7 rd rs1 imm
  | .xori rd rs1 imm => encodeI 4#3 0x13#7 rd rs1 imm
  | .ori rd rs1 imm => encodeI 6#3 0x13#7 rd rs1 imm
  | .andi rd rs1 imm => encodeI 7#3 0x13#7 rd rs1 imm
  | .slli rd rs1 imm => encodeI 1#3 0x13#7 rd rs1 imm
  | .srli rd rs1 imm => encodeI 5#3 0x13#7 rd rs1 imm
  | .srai rd rs1 imm => encodeI 5#3 0x13#7 rd rs1 imm
  | .lb rd rs1 imm => encodeI 0#3 0x03#7 rd rs1 imm
  | .lh rd rs1 imm => encodeI 1#3 0x03#7 rd rs1 imm
  | .lw rd rs1 imm => encodeI 2#3 0x03#7 rd rs1 imm
  | .lbu rd rs1 imm => encodeI 4#3 0x03#7 rd rs1 imm
  | .lhu rd rs1 imm => encodeI 5#3 0x03#7 rd rs1 imm
  | .sb rs1 rs2 imm => encodeS 0#3 0x23#7 rs1 rs2 imm
  | .sh rs1 rs2 imm => encodeS 1#3 0x23#7 rs1 rs2 imm
  | .sw rs1 rs2 imm => encodeS 2#3 0x23#7 rs1 rs2 imm
  | .beq rs1 rs2 offset => encodeB 0#3 0x63#7 rs1 rs2 offset
  | .bne rs1 rs2 offset => encodeB 1#3 0x63#7 rs1 rs2 offset
  | .blt rs1 rs2 offset => encodeB 4#3 0x63#7 rs1 rs2 offset
  | .bge rs1 rs2 offset => encodeB 5#3 0x63#7 rs1 rs2 offset
  | .bltu rs1 rs2 offset => encodeB 6#3 0x63#7 rs1 rs2 offset
  | .bgeu rs1 rs2 offset => encodeB 7#3 0x63#7 rs1 rs2 offset
  | .lui rd imm20 => encodeU 0x37#7 rd imm20
  | .auipc rd imm20 => encodeU 0x17#7 rd imm20
  | .jal rd offset => encodeJ 0x6F#7 rd offset
  | .jalr rd rs1 imm => encodeI 0#3 0x67#7 rd rs1 imm
  | .ecall => 0x00000073#32

/-! ### The opcode table as data (spec/opcode_table.json) -/

/-- The row's mnemonic in spec/opcode_table.json, letter for letter. -/
def Instr.mnemonic : Instr → Text
  | .add _ _ _ => ['a', 'd', 'd']
  | .sub _ _ _ => ['s', 'u', 'b']
  | .sll _ _ _ => ['s', 'l', 'l']
  | .slt _ _ _ => ['s', 'l', 't']
  | .sltu _ _ _ => ['s', 'l', 't', 'u']
  | .xor _ _ _ => ['x', 'o', 'r']
  | .srl _ _ _ => ['s', 'r', 'l']
  | .sra _ _ _ => ['s', 'r', 'a']
  | .or _ _ _ => ['o', 'r']
  | .and _ _ _ => ['a', 'n', 'd']
  | .mul _ _ _ => ['m', 'u', 'l']
  | .mulh _ _ _ => ['m', 'u', 'l', 'h']
  | .div _ _ _ => ['d', 'i', 'v']
  | .divu _ _ _ => ['d', 'i', 'v', 'u']
  | .rem _ _ _ => ['r', 'e', 'm']
  | .remu _ _ _ => ['r', 'e', 'm', 'u']
  | .addi _ _ _ => ['a', 'd', 'd', 'i']
  | .slti _ _ _ => ['s', 'l', 't', 'i']
  | .sltiu _ _ _ => ['s', 'l', 't', 'i', 'u']
  | .xori _ _ _ => ['x', 'o', 'r', 'i']
  | .ori _ _ _ => ['o', 'r', 'i']
  | .andi _ _ _ => ['a', 'n', 'd', 'i']
  | .slli _ _ _ => ['s', 'l', 'l', 'i']
  | .srli _ _ _ => ['s', 'r', 'l', 'i']
  | .srai _ _ _ => ['s', 'r', 'a', 'i']
  | .lb _ _ _ => ['l', 'b']
  | .lh _ _ _ => ['l', 'h']
  | .lw _ _ _ => ['l', 'w']
  | .lbu _ _ _ => ['l', 'b', 'u']
  | .lhu _ _ _ => ['l', 'h', 'u']
  | .sb _ _ _ => ['s', 'b']
  | .sh _ _ _ => ['s', 'h']
  | .sw _ _ _ => ['s', 'w']
  | .beq _ _ _ => ['b', 'e', 'q']
  | .bne _ _ _ => ['b', 'n', 'e']
  | .blt _ _ _ => ['b', 'l', 't']
  | .bge _ _ _ => ['b', 'g', 'e']
  | .bltu _ _ _ => ['b', 'l', 't', 'u']
  | .bgeu _ _ _ => ['b', 'g', 'e', 'u']
  | .lui _ _ => ['l', 'u', 'i']
  | .auipc _ _ => ['a', 'u', 'i', 'p', 'c']
  | .jal _ _ => ['j', 'a', 'l']
  | .jalr _ _ _ => ['j', 'a', 'l', 'r']
  | .ecall => ['e', 'c', 'a', 'l', 'l']

/-- A row of the table: a word `w` is an instruction of the row when `w &&& mask = bits`. -/
structure OpcodeRow where
  mnemonic : Text
  bits     : Word
  mask     : Word
deriving DecidableEq, Repr

/-- The row holds of the word. -/
def OpcodeRow.holds (row : OpcodeRow) (w : Word) : Bool := w &&& row.mask == row.bits

/-- The rows of OP. -/
def opcodeRowsOp : List OpcodeRow :=
  [⟨['a', 'd', 'd'], 0x00000033#32, 0xFE00707F#32⟩,
   ⟨['s', 'u', 'b'], 0x40000033#32, 0xFE00707F#32⟩,
   ⟨['s', 'l', 'l'], 0x00001033#32, 0xFE00707F#32⟩,
   ⟨['s', 'l', 't'], 0x00002033#32, 0xFE00707F#32⟩,
   ⟨['s', 'l', 't', 'u'], 0x00003033#32, 0xFE00707F#32⟩,
   ⟨['x', 'o', 'r'], 0x00004033#32, 0xFE00707F#32⟩,
   ⟨['s', 'r', 'l'], 0x00005033#32, 0xFE00707F#32⟩,
   ⟨['s', 'r', 'a'], 0x40005033#32, 0xFE00707F#32⟩,
   ⟨['o', 'r'], 0x00006033#32, 0xFE00707F#32⟩,
   ⟨['a', 'n', 'd'], 0x00007033#32, 0xFE00707F#32⟩,
   ⟨['m', 'u', 'l'], 0x02000033#32, 0xFE00707F#32⟩,
   ⟨['m', 'u', 'l', 'h'], 0x02001033#32, 0xFE00707F#32⟩,
   ⟨['d', 'i', 'v'], 0x02004033#32, 0xFE00707F#32⟩,
   ⟨['d', 'i', 'v', 'u'], 0x02005033#32, 0xFE00707F#32⟩,
   ⟨['r', 'e', 'm'], 0x02006033#32, 0xFE00707F#32⟩,
   ⟨['r', 'e', 'm', 'u'], 0x02007033#32, 0xFE00707F#32⟩]

/-- The rows of OP-IMM. -/
def opcodeRowsOpImm : List OpcodeRow :=
  [⟨['a', 'd', 'd', 'i'], 0x00000013#32, 0x0000707F#32⟩,
   ⟨['s', 'l', 't', 'i'], 0x00002013#32, 0x0000707F#32⟩,
   ⟨['s', 'l', 't', 'i', 'u'], 0x00003013#32, 0x0000707F#32⟩,
   ⟨['x', 'o', 'r', 'i'], 0x00004013#32, 0x0000707F#32⟩,
   ⟨['o', 'r', 'i'], 0x00006013#32, 0x0000707F#32⟩,
   ⟨['a', 'n', 'd', 'i'], 0x00007013#32, 0x0000707F#32⟩,
   ⟨['s', 'l', 'l', 'i'], 0x00001013#32, 0x0000707F#32⟩,
   ⟨['s', 'r', 'l', 'i'], 0x00005013#32, 0x4000707F#32⟩,
   ⟨['s', 'r', 'a', 'i'], 0x40005013#32, 0x4000707F#32⟩]

/-- The rows of LOAD and STORE. -/
def opcodeRowsMemory : List OpcodeRow :=
  [⟨['l', 'b'], 0x00000003#32, 0x0000707F#32⟩,
   ⟨['l', 'h'], 0x00001003#32, 0x0000707F#32⟩,
   ⟨['l', 'w'], 0x00002003#32, 0x0000707F#32⟩,
   ⟨['l', 'b', 'u'], 0x00004003#32, 0x0000707F#32⟩,
   ⟨['l', 'h', 'u'], 0x00005003#32, 0x0000707F#32⟩,
   ⟨['s', 'b'], 0x00000023#32, 0x0000707F#32⟩,
   ⟨['s', 'h'], 0x00001023#32, 0x0000707F#32⟩,
   ⟨['s', 'w'], 0x00002023#32, 0x0000707F#32⟩]

/-- The rows of BRANCH, LUI, AUIPC, JAL, JALR and SYSTEM. -/
def opcodeRowsControl : List OpcodeRow :=
  [⟨['b', 'e', 'q'], 0x00000063#32, 0x0000707F#32⟩,
   ⟨['b', 'n', 'e'], 0x00001063#32, 0x0000707F#32⟩,
   ⟨['b', 'l', 't'], 0x00004063#32, 0x0000707F#32⟩,
   ⟨['b', 'g', 'e'], 0x00005063#32, 0x0000707F#32⟩,
   ⟨['b', 'l', 't', 'u'], 0x00006063#32, 0x0000707F#32⟩,
   ⟨['b', 'g', 'e', 'u'], 0x00007063#32, 0x0000707F#32⟩,
   ⟨['l', 'u', 'i'], 0x00000037#32, 0x0000007F#32⟩,
   ⟨['a', 'u', 'i', 'p', 'c'], 0x00000017#32, 0x0000007F#32⟩,
   ⟨['j', 'a', 'l'], 0x0000006F#32, 0x0000007F#32⟩,
   ⟨['j', 'a', 'l', 'r'], 0x00000067#32, 0x0000707F#32⟩,
   ⟨['e', 'c', 'a', 'l', 'l'], 0x00000073#32, 0xFFFFFFFF#32⟩]

/-- The 44 rows, in the table's order. -/
def opcodeTable : List OpcodeRow :=
  opcodeRowsOp ++ opcodeRowsOpImm ++ opcodeRowsMemory ++ opcodeRowsControl

/-! ### The host's view of the decoder -/

/-- The instruction the decoder reads from the word `w` of the table's numbering (bit 0 the least significant bit of
the first and only word), the bits above `nbits` zero, laid out in memory order. -/
def decodeTableWord (nbits w : Nat) : Option Instr :=
  match decodeBytes (bytesOfWord (BitVec.ofNat 32 (w % 2 ^ nbits))) with
  | .ok (i, _) => some i
  | .error _ => none

end Sys2Proof
end

