-- ==== Sys2Proof/Machine/Disassembler.lean ====
section
/-! DEFINITION. The disassembler (R270 to R289): a pure function over the executor's own decoder (R69, R271). -/

namespace Sys2Proof.Machine

/-! ### Numbers and registers (R272, R274) -/

/-- Unsigned decimal, no leading zero. -/
def decimal (n : Nat) : Text := Nat.toDigits 10 n

/-- Signed decimal: a leading `-` for a negative value, no `+` (R274). -/
def signedDecimal (v : Int) : Text := if v < 0 then '-' :: decimal v.natAbs else decimal v.natAbs

/-- `0x` and lowercase hexadecimal with no leading zeros, `0x0` for zero (R274). -/
def hexText (n : Nat) : Text := '0' :: 'x' :: Nat.toDigits 16 n

/-- Eight hexadecimal digits, most significant first: the trace's "fixed-width hexadecimal" (R114). -/
def hexFixed (w : Word) : Text :=
  [28, 24, 20, 16, 12, 8, 4, 0].map fun lo => Nat.digitChar (w.extractLsb' lo 4).toNat

/-- `x` and the decimal index (R272). -/
def regText (r : Reg) : Text := 'x' :: decimal r.val

/-- A comma and one space (R273). -/
def comma : Text := [',', ' ']

/-- A memory operand `imm(xN)`, no spaces inside (R273). -/
def memoryText (displacement : Word) (base : Reg) : Text :=
  signedDecimal displacement.toInt ++ ['('] ++ regText base ++ [')']

/-- The mnemonic, one space, the operands (R273). -/
def line (i : Instr) (operands : Text) : Text := i.mnemonic ++ [' '] ++ operands

/-- The literal `unknown` (R285). -/
def unknownText : Text := ['u', 'n', 'k', 'n', 'o', 'w', 'n']

/-! ### One shape for each rule R275 to R283 -/

/-- `<mn> x<rd>, x<rs1>, x<rs2>` (R275). -/
def textR (i : Instr) (rd rs1 rs2 : Reg) : Text :=
  line i (regText rd ++ comma ++ regText rs1 ++ comma ++ regText rs2)

/-- `<mn> x<rd>, x<rs1>, <sint(imm_i)>` (R276). -/
def textI (i : Instr) (rd rs1 : Reg) (imm : BitVec 12) : Text :=
  line i (regText rd ++ comma ++ regText rs1 ++ comma ++ signedDecimal (sext12 imm).toInt)

/-- `<mn> x<rd>, x<rs1>, <imm_i & 0x1f>` (R277). -/
def textShift (i : Instr) (rd rs1 : Reg) (imm : BitVec 12) : Text :=
  line i (regText rd ++ comma ++ regText rs1 ++ comma ++ decimal (sext12 imm &&& 0x1f#32).toNat)

/-- `<mn> x<reg>, <sint(imm)>(x<base>)`: loads, stores and jalr (R278, R279, R283). -/
def textMemory (i : Instr) (reg base : Reg) (imm : BitVec 12) : Text :=
  line i (regText reg ++ comma ++ memoryText (sext12 imm) base)

/-- `<mn> x<rs1>, x<rs2>, <sint(imm_b)>`: the relative offset (R280). -/
def textBranch (i : Instr) (rs1 rs2 : Reg) (offset : BitVec 13) : Text :=
  line i (regText rs1 ++ comma ++ regText rs2 ++ comma ++ signedDecimal (sext13 offset).toInt)

/-- `<mn> x<rd>, 0x<hex(imm_u >> 12)>` (R281). -/
def textUpper (i : Instr) (rd : Reg) (imm20 : BitVec 20) : Text :=
  line i (regText rd ++ comma ++ hexText (upper20 imm20 >>> 12).toNat)

/-- `jal x<rd>, <sint(imm_j)>` (R282). -/
def textJal (i : Instr) (rd : Reg) (offset : BitVec 21) : Text :=
  line i (regText rd ++ comma ++ signedDecimal (sext21 offset).toInt)

/-- The text of an instruction (R275 to R284). The six M instructions print `unknown` (R286). -/
def instrText (i : Instr) : Text :=
  match i with
  | .add rd rs1 rs2 | .sub rd rs1 rs2 | .sll rd rs1 rs2 | .slt rd rs1 rs2 | .sltu rd rs1 rs2
  | .xor rd rs1 rs2 | .srl rd rs1 rs2 | .sra rd rs1 rs2 | .or rd rs1 rs2 | .and rd rs1 rs2 =>
    textR i rd rs1 rs2
  | .mul _ _ _ | .mulh _ _ _ | .div _ _ _ | .divu _ _ _ | .rem _ _ _ | .remu _ _ _ => unknownText
  | .addi rd rs1 imm | .slti rd rs1 imm | .sltiu rd rs1 imm | .xori rd rs1 imm | .ori rd rs1 imm
  | .andi rd rs1 imm => textI i rd rs1 imm
  | .slli rd rs1 imm | .srli rd rs1 imm | .srai rd rs1 imm => textShift i rd rs1 imm
  | .lb rd rs1 imm | .lh rd rs1 imm | .lw rd rs1 imm | .lbu rd rs1 imm | .lhu rd rs1 imm =>
    textMemory i rd rs1 imm
  | .sb rs1 rs2 imm | .sh rs1 rs2 imm | .sw rs1 rs2 imm => textMemory i rs2 rs1 imm
  | .beq rs1 rs2 offset | .bne rs1 rs2 offset | .blt rs1 rs2 offset | .bge rs1 rs2 offset
  | .bltu rs1 rs2 offset | .bgeu rs1 rs2 offset => textBranch i rs1 rs2 offset
  | .lui rd imm20 | .auipc rd imm20 => textUpper i rd imm20
  | .jal rd offset => textJal i rd offset
  | .jalr rd rs1 imm => textMemory i rd rs1 imm
  | .ecall => i.mnemonic

/-- The text of what a word decodes to (R270, R285). -/
def decodedText : Decoded → Text
  | .instr i => instrText i
  | .unknown => unknownText

/-- The untruncated text of a word, as the trace uses it (R114, R287). The address has no effect (R288). -/
def disassembleFull (_address : Word) (w : Word) : Text := decodedText (decode w)

/-- `disassemble(address, w, maxlen)`: the first `maxlen` characters (R270, R287). -/
def disassemble (address w : Word) (maxlen : Nat) : Text := (disassembleFull address w).take maxlen

end Sys2Proof.Machine
end

