-- ==== Sys2Proof/Config.lean ====
section
/-! DEFINITION. What the spec leaves to the implementation or the environment, and the model fixes for `State.reset`
only. Each value is one instance of a parameter that stands in State (R7), so a statement about every state is a
statement about every value of the parameter. -/

namespace Sys2Proof

/-- What an address that memory does not list reads as (log entry 1).
DESIGN CHOICE, unsafe: R50 makes the bytes the image does not set part of the parameter `MEM`. -/
def Config.unlistedByte : Byte := 0#8

/-- `ENTRY` of `State.reset` (log entry 3). DESIGN CHOICE, unsafe: R321 leaves it open. -/
def Config.resetEntry : Word := 0#32

/-- `TRACE` of `State.reset` (log entry 7). DESIGN CHOICE, safe: it has no architectural effect (R116). -/
def Config.resetTrace : Bool := true

/-- `EOF_VALUE` of `State.reset`: a free value with no body, since R251 leaves it OPEN (log entry 6). -/
opaque Config.eofValue : Word

end Sys2Proof
end

