-- ==== Sys2Proof/Machine/State.lean ====
section
/-! DEFINITION. The state of the machine (spec/10_state.md), its stops, and the state after reset (R320). Plain data:
the parameters of R7 that a step consults (`MEM`, `INPUT`, `EOF_VALUE`, `TRACE`) are fields, so that a statement about
every state is a statement about every value of them. -/

namespace Sys2Proof.Machine

/-- The run state (R30). `halted` and `aborted` are terminal. -/
inductive RunState where
  | running
  | halted
  | aborted
deriving DecidableEq, Repr

/-- The two kinds of access the memory collaborator is asked for (R41). -/
inductive AccessKind where
  | read
  | write
deriving DecidableEq, Repr

/-- The three sizes of an access (R40). -/
inductive Width where
  | byte
  | half
  | word
deriving DecidableEq, Repr

/-- Accesses the memory collaborator refuses: the complement of the admission predicate of `MEM` (R41), as plain data
(log entry 2). `range` refuses one kind and size of access at every address from `first` to `last`; `misaligned` refuses one kind and
size wherever the address is no multiple of the size (R44, R46). -/
inductive DenyRule where
  | range (kind : AccessKind) (width : Width) (first last : Word)
  | misaligned (kind : AccessKind) (width : Width)
deriving DecidableEq, Repr

/-- Why an access was refused (R41): the reason of R11's `abort(reason)`. No state records it (R300). -/
inductive AbortReason where
  | memoryRead (a : Word) (width : Width)
  | memoryWrite (a : Word) (width : Width)
deriving DecidableEq, Repr

/-- The host's answer to one read of the input stream (R251, R252). -/
inductive InputItem where
  | byte (c : Byte)
  | eof
deriving DecidableEq, Repr

/-- The value a store wrote, in its own width (R115). -/
inductive StoredValue where
  | byte (v : Byte)
  | half (v : Half)
  | word (v : Word)
deriving DecidableEq, Repr

/-- The service an ecall performed, with what it read or wrote (R115). -/
inductive SyscallNote where
  | read (item : InputItem)
  | write (c : Byte)
  | halt
  | noService
deriving DecidableEq, Repr

/-- The side-effect annotation of a trace record; each part is present only where R115 says so. -/
structure Note where
  store     : Option (Word × StoredValue) := none
  taken     : Bool := false
  writeback : Option (Reg × Word) := none
  syscall   : Option SyscallNote := none
deriving DecidableEq, Repr

/-- One trace record (R114). -/
structure TraceRecord where
  count : Nat
  pc    : Word
  word  : Word
  text  : Text
  note  : Note
deriving DecidableEq, Repr

/-- Memory: (address, byte) pairs, addresses strictly rising, no entry equal to what an unlisted address reads as
(log entry 1). -/
abbrev Memory := List Host.Cell

structure State where
  /-- The register file (R20). The cell of index 0 is never read and never written (R22, R107). -/
  regs     : Vector Word 32
  /-- The program counter (R27). -/
  pc       : Word
  /-- The run state (R30). -/
  run      : RunState
  /-- The retired-instruction count (R31). -/
  count    : Nat
  /-- `MEM.bytes` (R41). -/
  mem      : Memory
  /-- The accesses the admission predicate of `MEM` refuses (R41); fixed for a run. -/
  deny     : List DenyRule
  /-- `INPUT`: the host's answers, in order (R251, R252); no step writes it. -/
  input    : List InputItem
  /-- The input stream position: how many answers are consumed (R34). -/
  inputPos : Nat
  /-- `EOF_VALUE` (R251); fixed for a run. -/
  eofValue : Word
  /-- The output stream, oldest byte first (R253). -/
  output   : List Byte
  /-- `TRACE`: whether a trace sink is present (R114); fixed for a run. -/
  traceOn  : Bool
  /-- The trace, oldest record first (R114, R116). -/
  trace    : List TraceRecord
deriving DecidableEq, Repr

/-- Why the machine has no next step. -/
inductive Fault where
  /-- Raised by `step` in `Halted`, where "the engine has no step" (R101). Safe: it is a terminal state. -/
  | engineHalted
  /-- Raised by `step` in `Aborted`, where "the engine has no step" (R101). Safe: it is a terminal state. -/
  | engineAborted
deriving DecidableEq, Repr

/-- Why an instruction has no meaning. -/
inductive Refusal where
  /-- Raised by `exec` for an instruction without a meaning; no arm raises it. Safe. -/
  | notModelled (mnemonic : String)
deriving DecidableEq, Repr

/-- What a step answers. -/
abbrev StepOutcome := Host.Outcome State Fault Refusal

/-- The start of a run (R320): the loader supplies the image and `ENTRY` (R324); the other arguments are the
parameters of R7. -/
def State.boot (entry : Word) (image : Memory) (deny : List DenyRule) (input : List InputItem) (eofValue : Word)
    (traceOn : Bool) : State where
  regs := Vector.replicate 32 0#32
  pc := entry
  run := .running
  count := 0
  mem := image
  deny := deny
  input := input
  inputPos := 0
  eofValue := eofValue
  output := []
  traceOn := traceOn
  trace := []

/-- The machine right after reset, with nothing loaded, every access admitted and no input answered yet
(log entries 1 to 7). -/
def State.reset : State := State.boot Config.resetEntry [] [] [] Config.eofValue Config.resetTrace

end Sys2Proof.Machine
end

