-- ==== Sys2Proof/Machine/Ops.lean ====
section
/-! DEFINITION. The named operations over memory, registers and streams (R11, R40, R41), retirement (R102, R107 to
R110, R114, R115) and the one abnormal outcome, the abort (R112). The hardware has no trap entry and no return from one
(R304, R305): the abort stands in their place. -/

namespace Sys2Proof.Machine

/-! ### Memory bytes -/

/-- The byte at a key of the list. -/
def Memory.lookup : Memory → Nat → Byte
  | [], _ => Config.unlistedByte
  | (k, v) :: rest, a => if a = k then v else Memory.lookup rest a

/-- Write a byte at a key, keeping the canonical form: writing what an unlisted address reads as removes the entry. -/
def Memory.insert : Memory → Nat → Byte → Memory
  | [], a, b => if b = Config.unlistedByte then [] else [(a, b)]
  | (k, v) :: rest, a, b =>
    if a < k then (if b = Config.unlistedByte then (k, v) :: rest else (a, b) :: (k, v) :: rest)
    else if a = k then (if b = Config.unlistedByte then rest else (a, b) :: rest)
    else (k, v) :: Memory.insert rest a b

/-- The canonical form above a lower bound on the addresses. -/
def Memory.wfFrom : Nat → Memory → Bool
  | _, [] => true
  | lo, (k, v) :: rest =>
    decide (lo ≤ k) && decide (k < 2 ^ 32) && (v != Config.unlistedByte) && Memory.wfFrom (k + 1) rest

/-- The canonical form: addresses of the 2^32-byte space (R33), strictly rising, no entry equal to the unlisted byte. -/
def Memory.wf (m : Memory) : Bool := Memory.wfFrom 0 m

/-- `MEM.bytes[a]` (R41). -/
def Memory.byteAt (m : Memory) (a : Word) : Byte := Memory.lookup m a.toNat

/-- `MEM.bytes[a] <- b` (R41). -/
def Memory.setByte (m : Memory) (a : Word) (b : Byte) : Memory := Memory.insert m a.toNat b

/-- `n` bytes from address `a` up as one number, the lowest address least significant (R41, R42); addresses wrap
(R45). -/
def Memory.readLE (m : Memory) (a : Word) : Nat → Word
  | 0 => 0#32
  | n + 1 => place 32 8 (Memory.readLE m (a + 1#32) n) ||| place 32 0 (Memory.byteAt m a)

/-- Write the low `8n` bits of a value as `n` bytes from address `a` up, least significant first (R41, R42). -/
def Memory.writeLE (m : Memory) (a : Word) : Nat → Word → Memory
  | 0, _ => m
  | n + 1, v => Memory.writeLE (Memory.setByte m a (v.setWidth 8)) (a + 1#32) n (v >>> 8)

/-! ### The memory collaborator's six operations (R40, R41) -/

/-- The size of an access in bytes (R40). -/
def Width.bytes : Width → Nat
  | .byte => 1
  | .half => 2
  | .word => 4

/-- The rule refuses this access. -/
def DenyRule.refuses (rule : DenyRule) (kind : AccessKind) (a : Word) (width : Width) : Bool :=
  match rule with
  | .range k w first last => k == kind && w == width && decide (first.toNat ≤ a.toNat) && decide (a.toNat ≤ last.toNat)
  | .misaligned k w => k == kind && w == width && (a.toNat % width.bytes != 0)

/-- The admission predicate of `MEM`, of kind, address and size (R41). -/
def State.admits (s : State) (kind : AccessKind) (a : Word) (width : Width) : Bool :=
  s.deny.all fun rule => !rule.refuses kind a width

/-- A read, when admitted (R41). -/
def State.guardRead {α : Type} (s : State) (a : Word) (width : Width) (value : α) : Except AbortReason α :=
  if s.admits .read a width then .ok value else .error (.memoryRead a width)

/-- `read_byte(a)` (R40). -/
def State.readByte (s : State) (a : Word) : Except AbortReason Byte :=
  s.guardRead a .byte ((Memory.readLE s.mem a 1).setWidth 8)

/-- `read_half(a)` (R40). -/
def State.readHalf (s : State) (a : Word) : Except AbortReason Half :=
  s.guardRead a .half ((Memory.readLE s.mem a 2).setWidth 16)

/-- `read_word(a)` (R40). -/
def State.readWord (s : State) (a : Word) : Except AbortReason Word := s.guardRead a .word (Memory.readLE s.mem a 4)

/-- The state with another memory content. -/
def State.withMem (s : State) (m : Memory) : State := { s with mem := m }

/-- A write of the low bits of `v`, when admitted; all of its bytes or none (R41, R112). -/
def State.guardWrite (s : State) (a : Word) (width : Width) (v : Word) : Except AbortReason State :=
  if s.admits .write a width then .ok (s.withMem (Memory.writeLE s.mem a width.bytes v))
  else .error (.memoryWrite a width)

/-- `write_byte(a, v)` (R40). -/
def State.writeByte (s : State) (a : Word) (v : Byte) : Except AbortReason State :=
  s.guardWrite a .byte (v.setWidth 32)

/-- `write_half(a, v)` (R40). -/
def State.writeHalf (s : State) (a : Word) (v : Half) : Except AbortReason State :=
  s.guardWrite a .half (v.setWidth 32)

/-- `write_word(a, v)` (R40). -/
def State.writeWord (s : State) (a : Word) (v : Word) : Except AbortReason State := s.guardWrite a .word v

/-! ### Registers (R11, R22, R107) -/

/-- `x[r]`: register 0 reads as 0 (R22). -/
def State.reg (s : State) (r : Reg) : Word := if r = 0 then 0#32 else s.regs[r]

/-- The write-back that commits: none where the index is 0 (R107). -/
def committed : Option (Reg × Word) → Option (Reg × Word)
  | none => none
  | some (r, v) => if r = 0 then none else some (r, v)

/-- The central write-back (R107). -/
def writeback (regs : Vector Word 32) (wb : Option (Reg × Word)) : Vector Word 32 :=
  match committed wb with
  | none => regs
  | some (r, v) => regs.set r v

/-! ### Streams (R11) -/

/-- The answer the next read of the input takes; none while no answer is available (R118, R252). -/
def State.nextInput (s : State) : Option InputItem := s.input[s.inputPos]?

/-- One answer consumed (R251). -/
def State.consumeInput (s : State) : State := { s with inputPos := s.inputPos + 1 }

/-- `OutputWrite(b)` (R253). -/
def State.outputWrite (s : State) (b : Byte) : State := { s with output := s.output ++ [b] }

/-! ### Retirement (R102, R107 to R110, R114, R115) and abort (R112) -/

/-- What an instruction's rule asks of retirement: R102's `out`. -/
structure Out where
  /-- The requested write-back. -/
  wb   : Option (Reg × Word) := none
  /-- The address of the next instruction. -/
  next : Word
  /-- The halting ecall (R110). -/
  halt : Bool := false
  /-- The annotation, but for the write-back's part, which retirement adds (R115). -/
  note : Note := {}
deriving DecidableEq, Repr

/-- The trace record of the word `w`, as it retires (R114, R115). -/
def traceRecord (s : State) (w : Word) (out : Out) : TraceRecord where
  count := s.count + 1
  pc := s.pc
  word := w
  text := disassembleFull s.pc w
  note := { out.note with writeback := committed out.wb }

/-- The rest of a step once the instruction's rule has run: write-back, PC, count, trace record, halt (R102). -/
def State.retire (s : State) (w : Word) (out : Out) : State :=
  { s with
    regs := writeback s.regs out.wb
    pc := out.next
    count := s.count + 1
    trace := if s.traceOn then s.trace ++ [traceRecord s w out] else s.trace
    run := if out.halt then .halted else s.run }

/-- `abort(reason)`: the run state becomes Aborted and nothing else changes; the reason is not recorded
(R11, R112, R300). -/
def State.abort (s : State) (_reason : AbortReason) : State := { s with run := .aborted }

/-- The instruction `i` retires (R102). `encode i` is the word it was fetched as. -/
def State.complete (s : State) (i : Instr) (out : Out) : StepOutcome := .next (s.retire (encode i) out)

/-- The shape of every instruction whose one effect is a write-back of `v` to `rd` (R107, R108). -/
def State.completeWriting (s : State) (i : Instr) (rd : Reg) (v : Word) : StepOutcome :=
  s.complete i { wb := some (rd, v), next := s.pc + 4#32 }

/-- The result of a run: the count, once the engine is Halted; an aborted run has none (R117, R31). -/
def runResult (s : State) : Option Nat := if s.run = .halted then some s.count else none

/-- The fetch (R103). -/
def State.fetch (s : State) : Except AbortReason Word := s.readWord s.pc

end Sys2Proof.Machine
end

