-- ==== Sys2Proof/Machine/Operands.lean ====
section
/-! DEFINITION. The operand forms: shift amounts (R130, R170), the one addressing mode (R190), and the targets of
branches and jumps (R210, R241, R242). Immediates are extended in Decode.lean, for the executor and the disassembler
alike (R69). -/

namespace Sys2Proof.Machine

/-- A register shift amount, `x[rs2][4:0]` (R130). -/
def shiftAmount (v : Word) : Nat := (v.extractLsb' 0 5).toNat

/-- An immediate shift amount, `imm_i & 0x1f` (R170). -/
def immShiftAmount (imm : BitVec 12) : Nat := (sext12 imm &&& 0x1f#32).toNat

/-- `ea = x[rs1] + imm`, modulo 2^32 (R190). -/
def effectiveAddress (s : State) (rs1 : Reg) (imm : BitVec 12) : Word := s.reg rs1 + sext12 imm

/-- `pc + imm_b`, modulo 2^32 (R210). -/
def branchTarget (s : State) (offset : BitVec 13) : Word := s.pc + sext13 offset

/-- `pc + imm_j`, modulo 2^32 (R241). -/
def jalTarget (s : State) (offset : BitVec 21) : Word := s.pc + sext21 offset

/-- `(x[rs1] + imm_i) & 0xFFFFFFFE` (R242). -/
def jalrTarget (s : State) (rs1 : Reg) (imm : BitVec 12) : Word := (s.reg rs1 + sext12 imm) &&& 0xFFFFFFFE#32

end Sys2Proof.Machine
end

