-- ==== Sys2Proof/Machine/Branch.lean ====
section
/-! DEFINITION. Conditional branches (spec/45_branch.md, R210 to R216). No delay slot, no check of the target, no register
write; a branch not taken goes to pc + 4. -/

namespace Sys2Proof.Machine

/-- A branch: to the target when the comparison holds, else on (R210, R115). -/
def State.branch (s : State) (i : Instr) (offset : BitVec 13) (condition : Bool) : StepOutcome :=
  s.complete i { next := if condition then branchTarget s offset else s.pc + 4#32, note := { taken := condition } }

/-- R211: branch if equal. -/
def execBeq (rs1 rs2 : Reg) (offset : BitVec 13) (s : State) : StepOutcome :=
  s.branch (.beq rs1 rs2 offset) offset (s.reg rs1 == s.reg rs2)

/-- R212: branch if not equal. -/
def execBne (rs1 rs2 : Reg) (offset : BitVec 13) (s : State) : StepOutcome :=
  s.branch (.bne rs1 rs2 offset) offset (s.reg rs1 != s.reg rs2)

/-- R213: branch if less than, signed. -/
def execBlt (rs1 rs2 : Reg) (offset : BitVec 13) (s : State) : StepOutcome :=
  s.branch (.blt rs1 rs2 offset) offset (lessSigned (s.reg rs1) (s.reg rs2))

/-- R214: branch if greater or equal, signed. -/
def execBge (rs1 rs2 : Reg) (offset : BitVec 13) (s : State) : StepOutcome :=
  s.branch (.bge rs1 rs2 offset) offset (geSigned (s.reg rs1) (s.reg rs2))

/-- R215: branch if less than, unsigned. -/
def execBltu (rs1 rs2 : Reg) (offset : BitVec 13) (s : State) : StepOutcome :=
  s.branch (.bltu rs1 rs2 offset) offset (lessUnsigned (s.reg rs1) (s.reg rs2))

/-- R216: branch if greater or equal, unsigned. -/
def execBgeu (rs1 rs2 : Reg) (offset : BitVec 13) (s : State) : StepOutcome :=
  s.branch (.bgeu rs1 rs2 offset) offset (geUnsigned (s.reg rs1) (s.reg rs2))

end Sys2Proof.Machine
end

