-- ==== Sys2Proof/Machine/IntegerImmediate.lean ====
section
/-! DEFINITION. Register-immediate integer instructions (spec/43_integer_immediate.md, R170 to R179). The second operand is
`imm_i`; the shifts use its low five bits. -/

namespace Sys2Proof.Machine

/-- R171: add immediate. -/
def execAddi (rd rs1 : Reg) (imm : BitVec 12) (s : State) : StepOutcome :=
  s.completeWriting (.addi rd rs1 imm) rd (s.reg rs1 + sext12 imm)

/-- R172: set if less than immediate, signed. -/
def execSlti (rd rs1 : Reg) (imm : BitVec 12) (s : State) : StepOutcome :=
  s.completeWriting (.slti rd rs1 imm) rd (oneIf (lessSigned (s.reg rs1) (sext12 imm)))

/-- R173: set if less than the sign-extended immediate, unsigned. -/
def execSltiu (rd rs1 : Reg) (imm : BitVec 12) (s : State) : StepOutcome :=
  s.completeWriting (.sltiu rd rs1 imm) rd (oneIf (lessUnsigned (s.reg rs1) (sext12 imm)))

/-- R174: exclusive or immediate. -/
def execXori (rd rs1 : Reg) (imm : BitVec 12) (s : State) : StepOutcome :=
  s.completeWriting (.xori rd rs1 imm) rd (s.reg rs1 ^^^ sext12 imm)

/-- R175: or immediate. -/
def execOri (rd rs1 : Reg) (imm : BitVec 12) (s : State) : StepOutcome :=
  s.completeWriting (.ori rd rs1 imm) rd (s.reg rs1 ||| sext12 imm)

/-- R176: and immediate. -/
def execAndi (rd rs1 : Reg) (imm : BitVec 12) (s : State) : StepOutcome :=
  s.completeWriting (.andi rd rs1 imm) rd (s.reg rs1 &&& sext12 imm)

/-- R177: shift left logical immediate. -/
def execSlli (rd rs1 : Reg) (imm : BitVec 12) (s : State) : StepOutcome :=
  s.completeWriting (.slli rd rs1 imm) rd (s.reg rs1 <<< immShiftAmount imm)

/-- R178: shift right logical immediate. -/
def execSrli (rd rs1 : Reg) (imm : BitVec 12) (s : State) : StepOutcome :=
  s.completeWriting (.srli rd rs1 imm) rd (s.reg rs1 >>> immShiftAmount imm)

/-- R179: shift right arithmetic immediate. -/
def execSrai (rd rs1 : Reg) (imm : BitVec 12) (s : State) : StepOutcome :=
  s.completeWriting (.srai rd rs1 imm) rd ((s.reg rs1).sshiftRight (immShiftAmount imm))

end Sys2Proof.Machine
end

