-- ==== Sys2Proof/Machine/IntegerRegister.lean ====
section
/-! DEFINITION. Register-register integer instructions (spec/41_integer_register.md, R130 to R140). Sums and differences wrap
modulo 2^32. -/

namespace Sys2Proof.Machine

/-- R131: add. -/
def execAdd (rd rs1 rs2 : Reg) (s : State) : StepOutcome :=
  s.completeWriting (.add rd rs1 rs2) rd (s.reg rs1 + s.reg rs2)

/-- R132: subtract. -/
def execSub (rd rs1 rs2 : Reg) (s : State) : StepOutcome :=
  s.completeWriting (.sub rd rs1 rs2) rd (s.reg rs1 - s.reg rs2)

/-- R133: shift left logical. -/
def execSll (rd rs1 rs2 : Reg) (s : State) : StepOutcome :=
  s.completeWriting (.sll rd rs1 rs2) rd (s.reg rs1 <<< shiftAmount (s.reg rs2))

/-- R134: set if less than, signed. -/
def execSlt (rd rs1 rs2 : Reg) (s : State) : StepOutcome :=
  s.completeWriting (.slt rd rs1 rs2) rd (oneIf (lessSigned (s.reg rs1) (s.reg rs2)))

/-- R135: set if less than, unsigned. -/
def execSltu (rd rs1 rs2 : Reg) (s : State) : StepOutcome :=
  s.completeWriting (.sltu rd rs1 rs2) rd (oneIf (lessUnsigned (s.reg rs1) (s.reg rs2)))

/-- R136: exclusive or. -/
def execXor (rd rs1 rs2 : Reg) (s : State) : StepOutcome :=
  s.completeWriting (.xor rd rs1 rs2) rd (s.reg rs1 ^^^ s.reg rs2)

/-- R137: shift right logical. -/
def execSrl (rd rs1 rs2 : Reg) (s : State) : StepOutcome :=
  s.completeWriting (.srl rd rs1 rs2) rd (s.reg rs1 >>> shiftAmount (s.reg rs2))

/-- R138: shift right arithmetic. -/
def execSra (rd rs1 rs2 : Reg) (s : State) : StepOutcome :=
  s.completeWriting (.sra rd rs1 rs2) rd ((s.reg rs1).sshiftRight (shiftAmount (s.reg rs2)))

/-- R139: or. -/
def execOr (rd rs1 rs2 : Reg) (s : State) : StepOutcome :=
  s.completeWriting (.or rd rs1 rs2) rd (s.reg rs1 ||| s.reg rs2)

/-- R140: and. -/
def execAnd (rd rs1 rs2 : Reg) (s : State) : StepOutcome :=
  s.completeWriting (.and rd rs1 rs2) rd (s.reg rs1 &&& s.reg rs2)

end Sys2Proof.Machine
end

