-- ==== Sys2Proof/Machine/Jump.lean ====
section
/-! DEFINITION. Unconditional jumps (spec/47_jump.md, R240 to R242). The link is the jump's own address + 4; link and target
are computed before the write-back; no alignment check. -/

namespace Sys2Proof.Machine

/-- R241: jump and link. -/
def execJal (rd : Reg) (offset : BitVec 21) (s : State) : StepOutcome :=
  s.complete (.jal rd offset) { wb := some (rd, s.pc + 4#32), next := jalTarget s offset }

/-- R242: jump and link register. -/
def execJalr (rd rs1 : Reg) (imm : BitVec 12) (s : State) : StepOutcome :=
  s.complete (.jalr rd rs1 imm) { wb := some (rd, s.pc + 4#32), next := jalrTarget s rs1 imm }

end Sys2Proof.Machine
end

