-- ==== Sys2Proof/Machine/LoadStore.lean ====
section
/-! DEFINITION. Loads and stores (spec/44_load_store.md, R190 to R198). The address is not checked (R190); an access that the
memory collaborator refuses aborts the step (R112). A load with rd = 0 still reads, and can still abort (R22). -/

namespace Sys2Proof.Machine

/-- A load: the value read is written to `rd`, or the step aborts (R191 to R195, R112). -/
def State.load (s : State) (i : Instr) (rd : Reg) (access : Except AbortReason Word) : StepOutcome :=
  match access with
  | .ok v => s.completeWriting i rd v
  | .error reason => .next (s.abort reason)

/-- A store: the step retires from the state with the bytes written, or aborts with none written
(R196 to R198, R112). -/
def State.store (s : State) (i : Instr) (ea : Word) (value : StoredValue) (access : Except AbortReason State) :
    StepOutcome :=
  match access with
  | .ok written => written.complete i { next := s.pc + 4#32, note := { store := some (ea, value) } }
  | .error reason => .next (s.abort reason)

/-- R191: load byte, sign-extended. -/
def execLb (rd rs1 : Reg) (imm : BitVec 12) (s : State) : StepOutcome :=
  s.load (.lb rd rs1 imm) rd ((s.readByte (effectiveAddress s rs1 imm)).map (·.signExtend 32))

/-- R192: load half, sign-extended. -/
def execLh (rd rs1 : Reg) (imm : BitVec 12) (s : State) : StepOutcome :=
  s.load (.lh rd rs1 imm) rd ((s.readHalf (effectiveAddress s rs1 imm)).map (·.signExtend 32))

/-- R193: load word, read as-is. -/
def execLw (rd rs1 : Reg) (imm : BitVec 12) (s : State) : StepOutcome :=
  s.load (.lw rd rs1 imm) rd (s.readWord (effectiveAddress s rs1 imm))

/-- R194: load byte, zero-extended. -/
def execLbu (rd rs1 : Reg) (imm : BitVec 12) (s : State) : StepOutcome :=
  s.load (.lbu rd rs1 imm) rd ((s.readByte (effectiveAddress s rs1 imm)).map (·.setWidth 32))

/-- R195: load half, zero-extended. -/
def execLhu (rd rs1 : Reg) (imm : BitVec 12) (s : State) : StepOutcome :=
  s.load (.lhu rd rs1 imm) rd ((s.readHalf (effectiveAddress s rs1 imm)).map (·.setWidth 32))

/-- R196: store byte. -/
def execSb (rs1 rs2 : Reg) (imm : BitVec 12) (s : State) : StepOutcome :=
  s.store (.sb rs1 rs2 imm) (effectiveAddress s rs1 imm) (.byte ((s.reg rs2).extractLsb' 0 8))
    (s.writeByte (effectiveAddress s rs1 imm) ((s.reg rs2).extractLsb' 0 8))

/-- R197: store half. -/
def execSh (rs1 rs2 : Reg) (imm : BitVec 12) (s : State) : StepOutcome :=
  s.store (.sh rs1 rs2 imm) (effectiveAddress s rs1 imm) (.half ((s.reg rs2).extractLsb' 0 16))
    (s.writeHalf (effectiveAddress s rs1 imm) ((s.reg rs2).extractLsb' 0 16))

/-- R198: store word. -/
def execSw (rs1 rs2 : Reg) (imm : BitVec 12) (s : State) : StepOutcome :=
  s.store (.sw rs1 rs2 imm) (effectiveAddress s rs1 imm) (.word (s.reg rs2))
    (s.writeWord (effectiveAddress s rs1 imm) (s.reg rs2))

end Sys2Proof.Machine
end

