-- ==== Sys2Proof/Machine/MultiplyDivide.lean ====
section
/-! DEFINITION. Multiply and divide (spec/42_multiply_divide.md, R150 to R156). Operands are read as integers, the result is
exact, and it is narrowed at the end. Nothing traps. -/

namespace Sys2Proof.Machine

/-- The low 32 bits of the product (R151). -/
def mulLow (a b : Word) : Word := BitVec.ofNat 32 (a.toNat * b.toNat)

/-- Bits 63:32 of the signed 64-bit product (R152). -/
def mulHighSigned (a b : Word) : Word := (BitVec.ofInt 64 (a.toInt * b.toInt)).extractLsb' 32 32

/-- The one signed overflow, -2^31 / -1 (R150). -/
def divOverflows (a b : Word) : Bool := a == 0x80000000#32 && b == 0xFFFFFFFF#32

/-- Signed quotient, truncated toward zero (R153). -/
def divSigned (a b : Word) : Word :=
  if b = 0#32 then 0xFFFFFFFF#32
  else if divOverflows a b then 0x80000000#32
  else BitVec.ofInt 32 (a.toInt.tdiv b.toInt)

/-- Unsigned quotient (R154). -/
def divUnsigned (a b : Word) : Word :=
  if b = 0#32 then 0xFFFFFFFF#32 else BitVec.ofNat 32 (a.toNat / b.toNat)

/-- Signed remainder, with the dividend's sign (R155). -/
def remSigned (a b : Word) : Word :=
  if b = 0#32 then a
  else if divOverflows a b then 0#32
  else BitVec.ofInt 32 (a.toInt - a.toInt.tdiv b.toInt * b.toInt)

/-- Unsigned remainder (R156). -/
def remUnsigned (a b : Word) : Word :=
  if b = 0#32 then a else BitVec.ofNat 32 (a.toNat % b.toNat)

/-- R151: multiply, low 32 bits. -/
def execMul (rd rs1 rs2 : Reg) (s : State) : StepOutcome :=
  s.completeWriting (.mul rd rs1 rs2) rd (mulLow (s.reg rs1) (s.reg rs2))

/-- R152: multiply high, signed by signed. -/
def execMulh (rd rs1 rs2 : Reg) (s : State) : StepOutcome :=
  s.completeWriting (.mulh rd rs1 rs2) rd (mulHighSigned (s.reg rs1) (s.reg rs2))

/-- R153: signed divide. -/
def execDiv (rd rs1 rs2 : Reg) (s : State) : StepOutcome :=
  s.completeWriting (.div rd rs1 rs2) rd (divSigned (s.reg rs1) (s.reg rs2))

/-- R154: unsigned divide. -/
def execDivu (rd rs1 rs2 : Reg) (s : State) : StepOutcome :=
  s.completeWriting (.divu rd rs1 rs2) rd (divUnsigned (s.reg rs1) (s.reg rs2))

/-- R155: signed remainder. -/
def execRem (rd rs1 rs2 : Reg) (s : State) : StepOutcome :=
  s.completeWriting (.rem rd rs1 rs2) rd (remSigned (s.reg rs1) (s.reg rs2))

/-- R156: unsigned remainder. -/
def execRemu (rd rs1 rs2 : Reg) (s : State) : StepOutcome :=
  s.completeWriting (.remu rd rs1 rs2) rd (remUnsigned (s.reg rs1) (s.reg rs2))

end Sys2Proof.Machine
end

