-- ==== Sys2Proof/Machine/System.lean ====
section
/-! DEFINITION. ecall and its services (spec/48_system_ecall.md, R250 to R255). It does not trap: the service runs inside the
step, and the ecall retires. A read with no answer waits: the step has not happened (R252; log entry 5). -/

namespace Sys2Proof.Machine

/-- What a read delivers to x10 (R251). -/
def inputValue (eofValue : Word) : InputItem → Word
  | .byte c => c.setWidth 32
  | .eof => eofValue

/-- Selector 1 (R251, R252). -/
def ecallRead (s : State) : StepOutcome :=
  match s.nextInput with
  | none => .next s
  | some item =>
    s.consumeInput.complete .ecall
      { wb := some (10, inputValue s.eofValue item), next := s.pc + 4#32, note := { syscall := some (.read item) } }

/-- Selector 2 (R253). -/
def ecallWrite (s : State) : StepOutcome :=
  (s.outputWrite ((s.reg 10).extractLsb' 0 8)).complete .ecall
    { next := s.pc + 4#32, note := { syscall := some (.write ((s.reg 10).extractLsb' 0 8)) } }

/-- Selectors 3 and 93 (R254, R110). -/
def ecallHalt (s : State) : StepOutcome :=
  s.complete .ecall { next := s.pc + 4#32, halt := true, note := { syscall := some .halt } }

/-- Every other selector (R255). -/
def ecallNothing (s : State) : StepOutcome :=
  s.complete .ecall { next := s.pc + 4#32, note := { syscall := some .noService } }

/-- R250: the selector is the whole of x17. -/
def execEcall (s : State) : StepOutcome :=
  if s.reg 17 = 1#32 then ecallRead s
  else if s.reg 17 = 2#32 then ecallWrite s
  else if s.reg 17 = 3#32 ∨ s.reg 17 = 93#32 then ecallHalt s
  else ecallNothing s

/-- An ecall would ask for input here and find no answer (R252). -/
def State.awaitsInput (s : State) : Bool := s.reg 17 == 1#32 && s.nextInput.isNone

/-- The blocked condition of R34: the engine is Running, the word at the PC is ecall, and its selector-1 read finds no
answer (R118). -/
def State.blocked (s : State) : Bool :=
  s.run == .running && s.fetch.toOption == some 0x00000073#32 && s.awaitsInput

end Sys2Proof.Machine
end

