-- ==== Sys2Proof/Machine/UpperImmediate.lean ====
section
/-! DEFINITION. Upper-immediate instructions (spec/46_upper_immediate.md, R231 and R232). -/

namespace Sys2Proof.Machine

/-- R231: load upper immediate. -/
def execLui (rd : Reg) (imm20 : BitVec 20) (s : State) : StepOutcome :=
  s.completeWriting (.lui rd imm20) rd (upper20 imm20)

/-- R232: add upper immediate to the instruction's own address. -/
def execAuipc (rd : Reg) (imm20 : BitVec 20) (s : State) : StepOutcome :=
  s.completeWriting (.auipc rd imm20) rd (s.pc + upper20 imm20)

end Sys2Proof.Machine
end

