-- ==== Sys2Proof/Machine/Unknown.lean ====
section
/-! DEFINITION. The class Unknown (R80, R111): every word outside the opcode table is a silent no-op that retires. -/

namespace Sys2Proof.Machine

/-- R111: no register, memory or stream changes; PC + 4, Count + 1, and a trace record with no annotation. -/
def execUnknown (w : Word) (s : State) : StepOutcome := .next (s.retire w { next := s.pc + 4#32 })

end Sys2Proof.Machine
end

