-- ==== Sys2Proof/Machine/Step.lean ====
section
/-! DEFINITION. One step of the engine (R101, R102), and the placing of an instruction where the next step fetches. -/

namespace Sys2Proof.Machine

/-- Run what a word decodes to (R106). -/
def execDecoded (w : Word) (s : State) : Decoded → Host.Outcome State Fault Refusal
  | .instr i => exec i s
  | .unknown => execUnknown w s

/-- One step (R102). In Halted and Aborted the engine has no step (R101); a refused fetch aborts (R103, R112). -/
def step (s : State) : Host.Outcome State Fault Refusal :=
  match s.run with
  | .halted => .fault .engineHalted
  | .aborted => .fault .engineAborted
  | .running =>
    match s.fetch with
    | .error reason => .next (s.abort reason)
    | .ok w => execDecoded w s (decode w)

/-- `s` with the word `w` (the bits above `nbits` zero) placed where the next step fetches: what a loader does (R324).
Only where the fetch needs it, the engine is set Running and the deny rules that refuse this fetch are dropped
(log entry 9). -/
def State.withFetchWord (s : State) (nbits w : Nat) : State :=
  { s with
    mem := Memory.writeLE s.mem s.pc 4 (BitVec.ofNat 32 (w % 2 ^ nbits))
    run := .running
    deny := s.deny.filter fun rule => !rule.refuses .read s.pc .word }

end Sys2Proof.Machine
end

