-- ==== Sys2Proof/Safety.lean ====
section
/-! DEFINITION. What a good state is, and what counts as a safe run. -/

namespace Sys2Proof.Machine

/-- The facts about a state that reset establishes and every step keeps: the memory is in its canonical form, the cell
of register 0 holds 0 (R22), no more input is consumed than the host has answered (R34), and the trace holds one record
for each retired instruction, numbered from 1, where a sink is present (R114, R116). -/
structure State.Inv (s : State) : Prop where
  memoryCanonical : Memory.wf s.mem = true
  zeroCell        : s.regs[0] = 0#32
  inputConsumed   : s.inputPos ≤ s.input.length
  traceNumbered   : s.traceOn = true → s.trace.map TraceRecord.count = (List.range s.count).map (· + 1)
  traceAbsent     : s.traceOn = false → s.trace = []

/-- No access of the run so far was refused (R112): the run may go on, wait for input, or have halted. -/
def State.safe (s : State) : Bool := s.run != .aborted

end Sys2Proof.Machine
end

