-- ==== Sys2Proof/Certificates/Slice0/Obligations.lean ====
section
/-! DEFINITION. The statements for the provers, and the vocabulary they are written in (`Claims.…`). Values are stated
from the spec's rules in integer arithmetic where the meaning uses bit-vector operations, so that a statement is no
copy of a meaning. -/

open Sys2Proof Sys2Proof.Machine

/-! ### Vocabulary -/

/-- No register reads otherwise than before. -/
def Claims.RegistersKept (s t : State) : Prop := ∀ r, t.reg r = s.reg r

/-- `rd` reads as `v`, unless it is register 0, and every other register reads as before (R22, R107). -/
def Claims.WritesOnly (s t : State) (rd : Reg) (v : Word) : Prop :=
  ∀ r, t.reg r = if r = rd ∧ r ≠ 0 then v else s.reg r

/-- Every byte of memory reads as before. -/
def Claims.MemoryKept (s t : State) : Prop := ∀ a, Memory.byteAt t.mem a = Memory.byteAt s.mem a

/-- No input answer is consumed and no byte is written. -/
def Claims.StreamsKept (s t : State) : Prop := t.inputPos = s.inputPos ∧ t.output = s.output

/-- The parameters the admission predicate of `MEM`, `INPUT`, `EOF_VALUE` and `TRACE` (R7). -/
def Claims.ParametersKept (s t : State) : Prop :=
  t.deny = s.deny ∧ t.input = s.input ∧ t.eofValue = s.eofValue ∧ t.traceOn = s.traceOn

/-- What every retirement does: the PC moves to `next`, the count grows by one, the parameters stay (R108, R109). -/
def Claims.Advances (s t : State) (next : Word) : Prop :=
  t.pc = next ∧ t.count = s.count + 1 ∧ Claims.ParametersKept s t

/-- The instruction completes, writing `v` to `rd` and nothing else. -/
def Claims.CompletesWriting (i : Instr) (s : State) (rd : Reg) (v next : Word) : Prop :=
  ∃ t, exec i s = .next t ∧ Claims.Advances s t next ∧ t.run = s.run ∧ Claims.WritesOnly s t rd v ∧
    Claims.MemoryKept s t ∧ Claims.StreamsKept s t

/-- The instruction completes, writing no register. -/
def Claims.CompletesPlain (i : Instr) (s : State) (next : Word) : Prop :=
  ∃ t, exec i s = .next t ∧ Claims.Advances s t next ∧ t.run = s.run ∧ Claims.RegistersKept s t ∧
    Claims.MemoryKept s t ∧ Claims.StreamsKept s t

/-- The step aborts: the run state becomes Aborted and nothing else changes (R112). -/
def Claims.aborted (s : State) : State := { s with run := .aborted }

/-- The trace record a retirement adds, where a sink is present (R114). -/
def Claims.Traces (s t : State) (w : Word) (note : Note) : Prop :=
  t.trace = if s.traceOn then
    s.trace ++ [{ count := s.count + 1, pc := s.pc, word := w, text := disassembleFull s.pc w, note := note }]
    else s.trace

/-! ### Encoding -/

/-- A few words written out from the spec's encodings, one or more of each family, decode to their instructions
(30_encoding.md; 95_test_vectors.md V30, V40 to V48). -/
def Obligations.SpecWordsDecodeToTheirInstructions : Prop :=
  decode 0x403100B3#32 = .instr (.sub 1 2 3) ∧ decode 0x023140B3#32 = .instr (.div 1 2 3) ∧
  decode 0xFFF00093#32 = .instr (.addi 1 0 0xFFF#12) ∧ decode 0xC0415093#32 = .instr (.srai 1 2 0xC04#12) ∧
  decode 0xFFC32283#32 = .instr (.lw 5 6 0xFFC#12) ∧ decode 0x00532423#32 = .instr (.sw 6 5 0x008#12) ∧
  decode 0xFE209CE3#32 = .instr (.bne 1 2 0x1FF8#13) ∧ decode 0x123452B7#32 = .instr (.lui 5 0x12345#20) ∧
  decode 0x00001297#32 = .instr (.auipc 5 0x00001#20) ∧ decode 0xFFDFF06F#32 = .instr (.jal 0 0x1FFFFC#21) ∧
  decode 0x004280E7#32 = .instr (.jalr 1 5 0x004#12) ∧ decode 0x00000073#32 = .instr .ecall ∧
  decode 0x00100073#32 = .unknown ∧ decode 0x00000000#32 = .unknown

/-- Decoding an encoded well-formed instruction gives it back: no operand bit is lost (R62, R70 to R79). That the operand
of slli, srli and srai is the whole 12-bit field is the model's choice (log entry 15, DESIGN CHOICE). -/
def Obligations.DecodeOfEncodeIsIdentity : Prop :=
  ∀ i : Instr, i.wellFormed = true → decode (encode i) = .instr i

/-- A word that decodes to an instruction is that instruction's encoding, and the instruction is well formed. This form
is the model's choice: R73 and decision D12 (the spec's own) say that w[31] and w[29:25] of an immediate shift do not
matter, and the model keeps them in the operand of slli, srli and srai (log entry 15, DESIGN CHOICE), so that two words
which differ only there decode to two terms with one architectural effect. -/
def Obligations.EncodeOfDecodeIsIdentity : Prop :=
  ∀ (w : Word) (i : Instr), decode w = .instr i → encode i = w ∧ i.wellFormed = true

/-- The decoder agrees with the opcode table on every word: a row's match and mask hold of a word exactly when the word
decodes to an instruction of that row's mnemonic (95_test_vectors.md E1). -/
def Obligations.DecoderAgreesWithOpcodeTable : Prop :=
  ∀ (w : Word), ∀ row ∈ opcodeTable,
    row.holds w = true ↔ ∃ i, decode w = .instr i ∧ i.mnemonic = row.mnemonic

/-- R63 to R67, bit by bit: where each bit of the five immediates comes from, and their ranges. -/
def Obligations.ImmediateBitsOfEveryWord : Prop :=
  ∀ w : Word,
    ((∀ k < 32, (immI w).getLsbD k = w.getLsbD (if k < 11 then 20 + k else 31)) ∧
      -2048 ≤ (immI w).toInt ∧ (immI w).toInt ≤ 2047 ∧ immI 0xFFF00093#32 = 0xFFFFFFFF#32) ∧
    ((∀ k < 32, (immS w).getLsbD k = w.getLsbD (if k < 5 then 7 + k else if k < 11 then 20 + k else 31)) ∧
      -2048 ≤ (immS w).toInt ∧ (immS w).toInt ≤ 2047) ∧
    ((immB w).getLsbD 0 = false ∧
      (∀ k < 32, 1 ≤ k → (immB w).getLsbD k =
        w.getLsbD (if k < 5 then 7 + k else if k < 11 then 20 + k else if k = 11 then 7 else 31)) ∧
      -4096 ≤ (immB w).toInt ∧ (immB w).toInt ≤ 4094) ∧
    (∀ k < 32, (immU w).getLsbD k = (decide (12 ≤ k) && w.getLsbD k)) ∧
    ((immJ w).getLsbD 0 = false ∧
      (∀ k < 32, 1 ≤ k → (immJ w).getLsbD k =
        w.getLsbD (if k < 11 then 20 + k else if k = 11 then 20 else if k < 20 then k else 31)) ∧
      -1048576 ≤ (immJ w).toInt ∧ (immJ w).toInt ≤ 1048574)

/-- jalr and ecall against every other word of their opcodes (R78, R79; decisions D13 and D14, the spec's own), and the
words that R82, R157, R217 and R256 name as Unknown (decisions D11, D14 and D15, the spec's own). -/
def Obligations.NamedReservedWordsAreUnknown : Prop :=
  ∀ w : Word,
    (w.extractLsb' 0 2 ≠ 0b11#2 → decode w = .unknown) ∧
    (opcode w ∈ [0x0F#7, 0x2F#7, 0x07#7, 0x27#7, 0x53#7, 0x43#7, 0x47#7, 0x4B#7, 0x4F#7, 0x1B#7, 0x3B#7, 0x0B#7, 0x2B#7,
      0x5B#7, 0x7B#7] → decode w = .unknown) ∧
    (opcode w = 0x33#7 → funct7 w = 0x01#7 → funct3 w = 2#3 ∨ funct3 w = 3#3 → decode w = .unknown) ∧
    (opcode w = 0x63#7 → funct3 w = 2#3 ∨ funct3 w = 3#3 → decode w = .unknown) ∧
    (opcode w = 0x67#7 → decode w = if funct3 w = 0#3 then .instr (.jalr (rdOf w) (rs1Of w) (rawI w)) else .unknown) ∧
    (opcode w = 0x73#7 → decode w = if w = 0x00000073#32 then .instr .ecall else .unknown) ∧
    decode 0x00000000#32 = .unknown ∧ decode 0xFFFFFFFF#32 = .unknown

/-! ### Results of the integer instructions -/

/-- A register-register row: the word's fields decode to the instruction, and it writes the value to rd. -/
def Claims.RegisterRow (f7 : BitVec 7) (f3 : BitVec 3) (i : Reg → Reg → Reg → Instr) (value : Word → Word → Word) :
    Prop :=
  ∀ (s : State) (rd rs1 rs2 : Reg),
    decode (encodeR f7 f3 0x33#7 rd rs1 rs2) = .instr (i rd rs1 rs2) ∧
    Claims.CompletesWriting (i rd rs1 rs2) s rd (value (s.reg rs1) (s.reg rs2)) (s.pc + 4#32)

/-- R134, R135, R136, R139, R140: encoding and result of the comparisons and the bitwise instructions, for every operand
and every state. -/
def Obligations.ComparisonsAndBitwiseInstructionsWriteTheirResult : Prop :=
  Claims.RegisterRow 0x00#7 2#3 .slt (fun a b => if a.toInt < b.toInt then 1#32 else 0#32) ∧
  Claims.RegisterRow 0x00#7 3#3 .sltu (fun a b => if a.toNat < b.toNat then 1#32 else 0#32) ∧
  Claims.RegisterRow 0x00#7 4#3 .xor (fun a b => a ^^^ b) ∧
  Claims.RegisterRow 0x00#7 6#3 .or (fun a b => a ||| b) ∧
  Claims.RegisterRow 0x00#7 7#3 .and (fun a b => a &&& b)

/-- Encoding and result of add and sub, which wrap (R131, R132; decision D6, the spec's own), and of the register shifts,
whose amount is the low five bits of rs2 (R133, R137, R138; decision D7, the spec's own). -/
def Obligations.SumsDifferencesAndShiftsWriteTheirResult : Prop :=
  Claims.RegisterRow 0x00#7 0#3 .add (fun a b => BitVec.ofNat 32 (a.toNat + b.toNat)) ∧
  Claims.RegisterRow 0x20#7 0#3 .sub (fun a b => BitVec.ofInt 32 ((a.toNat : Int) - b.toNat)) ∧
  Claims.RegisterRow 0x00#7 1#3 .sll (fun a b => BitVec.ofNat 32 (a.toNat * 2 ^ (b.toNat % 32))) ∧
  Claims.RegisterRow 0x00#7 5#3 .srl (fun a b => BitVec.ofNat 32 (a.toNat / 2 ^ (b.toNat % 32))) ∧
  Claims.RegisterRow 0x20#7 5#3 .sra (fun a b => BitVec.ofInt 32 (a.toInt / 2 ^ (b.toNat % 32)))

/-- R151, R152, R154, R156: encoding and result of mul, mulh, divu and remu, the zero divisor included. -/
def Obligations.ProductsAndUnsignedQuotientsWriteTheirResult : Prop :=
  Claims.RegisterRow 0x01#7 0#3 .mul (fun a b => BitVec.ofNat 32 (a.toNat * b.toNat)) ∧
  Claims.RegisterRow 0x01#7 1#3 .mulh (fun a b => BitVec.ofInt 32 (a.toInt * b.toInt / 2 ^ 32)) ∧
  Claims.RegisterRow 0x01#7 5#3 .divu (fun a b =>
    if b = 0#32 then 0xFFFFFFFF#32 else BitVec.ofNat 32 (a.toNat / b.toNat)) ∧
  Claims.RegisterRow 0x01#7 7#3 .remu (fun a b =>
    if b = 0#32 then a else BitVec.ofNat 32 (a.toNat % b.toNat))

/-- Encoding and result of div and rem, the zero divisor and the signed overflow included (R153, R155). Rounding toward
zero and the overflow's results are the spec's own decisions D8 and D9. -/
def Obligations.SignedDivisionWritesItsResult : Prop :=
  Claims.RegisterRow 0x01#7 4#3 .div (fun a b =>
    if b = 0#32 then 0xFFFFFFFF#32 else if a = 0x80000000#32 ∧ b = 0xFFFFFFFF#32 then 0x80000000#32
    else BitVec.ofInt 32 (a.toInt.tdiv b.toInt)) ∧
  Claims.RegisterRow 0x01#7 6#3 .rem (fun a b =>
    if b = 0#32 then a else if a = 0x80000000#32 ∧ b = 0xFFFFFFFF#32 then 0#32
    else BitVec.ofInt 32 (a.toInt - a.toInt.tdiv b.toInt * b.toInt))

/-- R150 (decisions D8 and D9, the spec's own): away from the zero divisor and the signed overflow, the quotient and
remainder that div and rem leave in rd satisfy dividend = quotient * divisor + remainder, with the remainder smaller than the divisor and of the dividend's
sign; divu and remu likewise, unsigned. -/
def Obligations.QuotientAndRemainderRecomposeTheDividend : Prop :=
  ∀ (s : State) (rd rs1 rs2 : Reg), rd ≠ 0 → s.reg rs2 ≠ 0#32 →
    ∃ q r qu ru, exec (.div rd rs1 rs2) s = .next q ∧ exec (.rem rd rs1 rs2) s = .next r ∧
      exec (.divu rd rs1 rs2) s = .next qu ∧ exec (.remu rd rs1 rs2) s = .next ru ∧
      (¬ (s.reg rs1 = 0x80000000#32 ∧ s.reg rs2 = 0xFFFFFFFF#32) →
        (s.reg rs1).toInt = (q.reg rd).toInt * (s.reg rs2).toInt + (r.reg rd).toInt) ∧
      |(r.reg rd).toInt| < |(s.reg rs2).toInt| ∧
      (0 ≤ (s.reg rs1).toInt → 0 ≤ (r.reg rd).toInt) ∧ ((s.reg rs1).toInt ≤ 0 → (r.reg rd).toInt ≤ 0) ∧
      (s.reg rs1).toNat = (qu.reg rd).toNat * (s.reg rs2).toNat + (ru.reg rd).toNat ∧
      (ru.reg rd).toNat < (s.reg rs2).toNat

/-- A register-immediate row. -/
def Claims.ImmediateRow (f3 : BitVec 3) (i : Reg → Reg → BitVec 12 → Instr) (encodes : BitVec 12 → Prop)
    (value : Word → BitVec 12 → Word) : Prop :=
  ∀ (s : State) (rd rs1 : Reg) (imm : BitVec 12),
    (encodes imm → decode (encodeI f3 0x13#7 rd rs1 imm) = .instr (i rd rs1 imm)) ∧
    Claims.CompletesWriting (i rd rs1 imm) s rd (value (s.reg rs1) imm) (s.pc + 4#32)

/-- R171, R172, R174, R175, R176: encoding and result of addi, slti and the bitwise immediate instructions, the immediate
sign-extended. -/
def Obligations.ImmediateInstructionsWriteTheirResult : Prop :=
  Claims.ImmediateRow 0#3 .addi (fun _ => True) (fun a imm => BitVec.ofInt 32 (a.toNat + imm.toInt)) ∧
  Claims.ImmediateRow 2#3 .slti (fun _ => True) (fun a imm => if a.toInt < imm.toInt then 1#32 else 0#32) ∧
  Claims.ImmediateRow 4#3 .xori (fun _ => True) (fun a imm => a ^^^ BitVec.ofInt 32 imm.toInt) ∧
  Claims.ImmediateRow 6#3 .ori (fun _ => True) (fun a imm => a ||| BitVec.ofInt 32 imm.toInt) ∧
  Claims.ImmediateRow 7#3 .andi (fun _ => True) (fun a imm => a &&& BitVec.ofInt 32 imm.toInt)

/-- Encoding and result of sltiu: the immediate is sign-extended first and then compared as unsigned (R173, which the spec
marks as derived from R63 and R135). -/
def Obligations.SltiuComparesWithTheExtendedImmediate : Prop :=
  Claims.ImmediateRow 3#3 .sltiu (fun _ => True)
    (fun a imm => if a.toNat < (BitVec.ofInt 32 imm.toInt).toNat then 1#32 else 0#32)

/-- R170, R177 to R179: the immediate shifts use the low five bits of the immediate and ignore the rest, but for bit 10,
which tells srai from srli (decision D12, the spec's own). -/
def Obligations.ImmediateShiftsIgnoreTheUpperBits : Prop :=
  Claims.ImmediateRow 1#3 .slli (fun _ => True)
    (fun a imm => BitVec.ofNat 32 (a.toNat * 2 ^ (imm.toNat % 32))) ∧
  Claims.ImmediateRow 5#3 .srli (fun imm => imm.getLsbD 10 = false)
    (fun a imm => BitVec.ofNat 32 (a.toNat / 2 ^ (imm.toNat % 32))) ∧
  Claims.ImmediateRow 5#3 .srai (fun imm => imm.getLsbD 10 = true)
    (fun a imm => BitVec.ofInt 32 (a.toInt / 2 ^ (imm.toNat % 32)))

/-! ### Loads and stores -/

/-- A load row: the address is base plus displacement; an admitted read writes the value to rd; a refused one aborts. -/
def Claims.LoadRow (f3 : BitVec 3) (i : Reg → Reg → BitVec 12 → Instr) (width : Width)
    (value : Memory → Word → Word) : Prop :=
  ∀ (s : State) (rd rs1 : Reg) (imm : BitVec 12),
    decode (encodeI f3 0x03#7 rd rs1 imm) = .instr (i rd rs1 imm) ∧
    effectiveAddress s rs1 imm = BitVec.ofInt 32 ((s.reg rs1).toNat + imm.toInt) ∧
    (s.admits .read (effectiveAddress s rs1 imm) width = true →
      Claims.CompletesWriting (i rd rs1 imm) s rd (value s.mem (effectiveAddress s rs1 imm)) (s.pc + 4#32)) ∧
    (s.admits .read (effectiveAddress s rs1 imm) width = false → exec (i rd rs1 imm) s = .next (Claims.aborted s))

/-- R191 to R195: encoding, address, value and abort of the five loads. Little-endian order, misaligned accesses, wrapping
addresses and the read of a load to register 0 are the spec's own decisions D2, D3, D5 and D21. -/
def Obligations.LoadsWriteTheBytesAtTheirAddress : Prop :=
  Claims.LoadRow 0#3 .lb .byte (fun m a => (Memory.byteAt m a).signExtend 32) ∧
  Claims.LoadRow 1#3 .lh .half (fun m a => (Memory.byteAt m (a + 1#32) ++ Memory.byteAt m a).signExtend 32) ∧
  Claims.LoadRow 2#3 .lw .word (fun m a =>
    Memory.byteAt m (a + 3#32) ++ Memory.byteAt m (a + 2#32) ++ Memory.byteAt m (a + 1#32) ++ Memory.byteAt m a) ∧
  Claims.LoadRow 4#3 .lbu .byte (fun m a => (Memory.byteAt m a).setWidth 32) ∧
  Claims.LoadRow 5#3 .lhu .half (fun m a => (Memory.byteAt m (a + 1#32) ++ Memory.byteAt m a).setWidth 32)

/-- A store row of `n` bytes: an admitted write changes exactly the bytes from the address up, to the low bytes of rs2,
and no register; a refused one aborts. -/
def Claims.StoreRow (f3 : BitVec 3) (i : Reg → Reg → BitVec 12 → Instr) (width : Width) (n : Nat) : Prop :=
  ∀ (s : State) (rs1 rs2 : Reg) (imm : BitVec 12),
    decode (encodeS f3 0x23#7 rs1 rs2 imm) = .instr (i rs1 rs2 imm) ∧
    effectiveAddress s rs1 imm = BitVec.ofInt 32 ((s.reg rs1).toNat + imm.toInt) ∧
    (s.admits .write (effectiveAddress s rs1 imm) width = true → Memory.wf s.mem = true →
      ∃ t, exec (i rs1 rs2 imm) s = .next t ∧ Claims.Advances s t (s.pc + 4#32) ∧ t.run = s.run ∧
        Claims.RegistersKept s t ∧ Claims.StreamsKept s t ∧
        (∀ k < n, Memory.byteAt t.mem (effectiveAddress s rs1 imm + BitVec.ofNat 32 k) =
          (s.reg rs2).extractLsb' (8 * k) 8) ∧
        (∀ a, (∀ k < n, a ≠ effectiveAddress s rs1 imm + BitVec.ofNat 32 k) →
          Memory.byteAt t.mem a = Memory.byteAt s.mem a)) ∧
    (s.admits .write (effectiveAddress s rs1 imm) width = false → exec (i rs1 rs2 imm) s = .next (Claims.aborted s))

/-- R196 to R198: encoding, address, bytes stored, frame and abort of the three stores. Little-endian order, misaligned
accesses and wrapping addresses are the spec's own decisions D2, D3 and D5. -/
def Obligations.StoresChangeExactlyTheirBytes : Prop :=
  Claims.StoreRow 0#3 .sb .byte 1 ∧ Claims.StoreRow 1#3 .sh .half 2 ∧ Claims.StoreRow 2#3 .sw .word 4

/-- What a store left is read back by a load at the same address: a word unchanged, a half and a byte zero-extended
(95_test_vectors.md E4, E5). -/
def Obligations.StoreThenLoadGivesTheValueBack : Prop :=
  ∀ (s : State) (rs1 rs2 rd base : Reg) (imm disp : BitVec 12), rd ≠ 0 → Memory.wf s.mem = true →
    effectiveAddress s base disp = effectiveAddress s rs1 imm →
    (s.admits .write (effectiveAddress s rs1 imm) .word = true →
      s.admits .read (effectiveAddress s rs1 imm) .word = true →
      ∃ t u, exec (.sw rs1 rs2 imm) s = .next t ∧ exec (.lw rd base disp) t = .next u ∧ u.reg rd = s.reg rs2) ∧
    (s.admits .write (effectiveAddress s rs1 imm) .half = true →
      s.admits .read (effectiveAddress s rs1 imm) .half = true →
      ∃ t u, exec (.sh rs1 rs2 imm) s = .next t ∧ exec (.lhu rd base disp) t = .next u ∧
        u.reg rd = s.reg rs2 &&& 0x0000FFFF#32) ∧
    (s.admits .write (effectiveAddress s rs1 imm) .byte = true →
      s.admits .read (effectiveAddress s rs1 imm) .byte = true →
      ∃ t u, exec (.sb rs1 rs2 imm) s = .next t ∧ exec (.lbu rd base disp) t = .next u ∧
        u.reg rd = s.reg rs2 &&& 0x000000FF#32)

/-- R42: the byte at the lowest address is the least significant, for data and fetch, and writes are the inverse
(decision D2, the spec's own); R45: a word at 0xFFFFFFFE wraps (decision D5, the spec's own). -/
def Obligations.AccessesAreLittleEndian : Prop :=
  ∀ (s : State) (a : Word),
    (s.admits .read a .half = true → s.readHalf a = .ok (Memory.byteAt s.mem (a + 1#32) ++ Memory.byteAt s.mem a)) ∧
    (s.admits .read a .word = true → s.readWord a = .ok (Memory.byteAt s.mem (a + 3#32) ++
      Memory.byteAt s.mem (a + 2#32) ++ Memory.byteAt s.mem (a + 1#32) ++ Memory.byteAt s.mem a)) ∧
    (s.admits .read s.pc .word = true → s.fetch = .ok (Memory.byteAt s.mem (s.pc + 3#32) ++
      Memory.byteAt s.mem (s.pc + 2#32) ++ Memory.byteAt s.mem (s.pc + 1#32) ++ Memory.byteAt s.mem s.pc)) ∧
    (∀ b0 b1 : Byte, Memory.wf s.mem = true → s.admits .write a .half = true →
      ∃ t, s.writeHalf a (b1 ++ b0) = .ok t ∧ Memory.byteAt t.mem a = b0 ∧ Memory.byteAt t.mem (a + 1#32) = b1) ∧
    (∀ b0 b1 b2 b3 : Byte, Memory.wf s.mem = true → s.admits .write a .word = true →
      ∃ t, s.writeWord a (b3 ++ b2 ++ b1 ++ b0) = .ok t ∧ Memory.byteAt t.mem a = b0 ∧
        Memory.byteAt t.mem (a + 1#32) = b1 ∧ Memory.byteAt t.mem (a + 2#32) = b2 ∧
        Memory.byteAt t.mem (a + 3#32) = b3) ∧
    (s.admits .read 0xFFFFFFFE#32 .word = true → s.readWord 0xFFFFFFFE#32 =
      .ok (Memory.byteAt s.mem 0x00000001#32 ++ Memory.byteAt s.mem 0x00000000#32 ++
        Memory.byteAt s.mem 0xFFFFFFFF#32 ++ Memory.byteAt s.mem 0xFFFFFFFE#32))

/-- A store of `n` bytes: it completes as itself, wherever it stores, its own word included; and every later fetch, at
whatever address `p`, has in each byte it shares with the store the byte stored. -/
def Claims.SeenByTheNextFetch (i : Reg → Reg → BitVec 12 → Instr) (width : Width) (n : Nat) : Prop :=
  ∀ (s : State) (w : Word) (rs1 rs2 : Reg) (imm : BitVec 12), s.run = .running → Memory.wf s.mem = true →
    s.fetch = .ok w → decode w = .instr (i rs1 rs2 imm) →
    s.admits .write (effectiveAddress s rs1 imm) width = true →
    ∃ t, step s = .next t ∧ Claims.Advances s t (s.pc + 4#32) ∧ Claims.RegistersKept s t ∧
      ∀ p, s.admits .read p .word = true → ∃ v, State.fetch { t with pc := p } = .ok v ∧
        ∀ j < 4, ∀ k < n, p + BitVec.ofNat 32 j = effectiveAddress s rs1 imm + BitVec.ofNat 32 k →
          v.extractLsb' (8 * j) 8 = (s.reg rs2).extractLsb' (8 * k) 8

/-- R54: a store is seen by the next fetch that reads any of its bytes, with no fence and no delay; a store that
overwrites its own word changes nothing about itself. -/
def Obligations.NextFetchSeesTheStore : Prop :=
  Claims.SeenByTheNextFetch .sb .byte 1 ∧ Claims.SeenByTheNextFetch .sh .half 2 ∧
    Claims.SeenByTheNextFetch .sw .word 4

/-- R41, R50, D1, D27: the model's plain-data memory and deny list stand for every `MEM`: each content of the 2^32 bytes
is a canonical memory, and each admission predicate is a deny list. So a statement about every state quantifies over
`MEM`, and the byte an unlisted address reads as (log entry 1, DESIGN CHOICE) restricts nothing. -/
def Obligations.EveryMemoryCollaboratorIsAState : Prop :=
  (∀ bytes : Word → Byte, ∃ m : Memory, Memory.wf m = true ∧ ∀ a, Memory.byteAt m a = bytes a) ∧
  (∀ admitted : AccessKind → Word → Width → Bool, ∃ deny : List DenyRule,
    ∀ s : State, s.deny = deny → ∀ kind a width, s.admits kind a width = admitted kind a width)

/-- Memories that read alike are the same data, in the model's canonical form (log entry 1). -/
def Obligations.CanonicalMemoriesThatReadAlikeAreEqual : Prop :=
  ∀ m m' : Memory, Memory.wf m = true → Memory.wf m' = true → (∀ a, Memory.byteAt m a = Memory.byteAt m' a) → m = m'

/-! ### Branches, upper immediates and jumps -/

/-- A branch row. -/
def Claims.BranchRow (f3 : BitVec 3) (i : Reg → Reg → BitVec 13 → Instr) (taken : Word → Word → Prop) : Prop :=
  ∀ (s : State) (rs1 rs2 : Reg) (offset : BitVec 13),
    (offset.getLsbD 0 = false → decode (encodeB f3 0x63#7 rs1 rs2 offset) = .instr (i rs1 rs2 offset)) ∧
    (taken (s.reg rs1) (s.reg rs2) →
      Claims.CompletesPlain (i rs1 rs2 offset) s (BitVec.ofInt 32 (s.pc.toNat + offset.toInt))) ∧
    (¬ taken (s.reg rs1) (s.reg rs2) → Claims.CompletesPlain (i rs1 rs2 offset) s (s.pc + 4#32))

/-- R211 to R216: encoding, condition and target of the six branches, for every offset and every PC. -/
def Obligations.BranchesGoToTheirTargetWhenTaken : Prop :=
  Claims.BranchRow 0#3 .beq (fun a b => a = b) ∧
  Claims.BranchRow 1#3 .bne (fun a b => a ≠ b) ∧
  Claims.BranchRow 4#3 .blt (fun a b => a.toInt < b.toInt) ∧
  Claims.BranchRow 5#3 .bge (fun a b => a.toInt ≥ b.toInt) ∧
  Claims.BranchRow 6#3 .bltu (fun a b => a.toNat < b.toNat) ∧
  Claims.BranchRow 7#3 .bgeu (fun a b => a.toNat ≥ b.toNat)

/-- R231: encoding and result of lui. -/
def Obligations.LuiWritesItsResult : Prop :=
  ∀ (s : State) (rd : Reg) (imm20 : BitVec 20),
    decode (encodeU 0x37#7 rd imm20) = .instr (.lui rd imm20) ∧
    Claims.CompletesWriting (.lui rd imm20) s rd (BitVec.ofNat 32 (imm20.toNat * 4096)) (s.pc + 4#32)

/-- R232: encoding and result of auipc; the sum wraps (decision D5, the spec's own). -/
def Obligations.AuipcWritesItsResult : Prop :=
  ∀ (s : State) (rd : Reg) (imm20 : BitVec 20),
    decode (encodeU 0x17#7 rd imm20) = .instr (.auipc rd imm20) ∧
    Claims.CompletesWriting (.auipc rd imm20) s rd (BitVec.ofNat 32 (s.pc.toNat + imm20.toNat * 4096)) (s.pc + 4#32)

/-- R240 to R242: encoding, link and target of jal and jalr. The target of jalr is even and is computed from the old
rs1. -/
def Obligations.JumpsLinkAndGoToTheirTarget : Prop :=
  (∀ (s : State) (rd : Reg) (offset : BitVec 21),
    (offset.getLsbD 0 = false → decode (encodeJ 0x6F#7 rd offset) = .instr (.jal rd offset)) ∧
    Claims.CompletesWriting (.jal rd offset) s rd (s.pc + 4#32) (BitVec.ofInt 32 (s.pc.toNat + offset.toInt))) ∧
  (∀ (s : State) (rd rs1 : Reg) (imm : BitVec 12),
    decode (encodeI 0#3 0x67#7 rd rs1 imm) = .instr (.jalr rd rs1 imm) ∧
    ∃ target : Word, target.getLsbD 0 = false ∧
      (∀ k < 32, 1 ≤ k → target.getLsbD k = (s.reg rs1 + imm.signExtend 32).getLsbD k) ∧
      Claims.CompletesWriting (.jalr rd rs1 imm) s rd (s.pc + 4#32) target)

/-! ### ecall -/

/-- R251: selector 1 consumes one answer of the input stream and writes the byte, zero-extended, to x10, or `EOF_VALUE`
at the end of input, for whatever value `EOF_VALUE` has (decisions D17 and D18, the spec's own). -/
def Obligations.EcallReadDeliversTheNextAnswer : Prop :=
  ∀ (s : State) (item : InputItem), s.reg 17 = 1#32 → s.input[s.inputPos]? = some item →
    ∃ t v, exec .ecall s = .next t ∧ Claims.Advances s t (s.pc + 4#32) ∧ t.run = s.run ∧ Claims.WritesOnly s t 10 v ∧
      (∀ c, item = .byte c → v.toNat = c.toNat) ∧ (item = .eof → v = s.eofValue) ∧
      Claims.MemoryKept s t ∧ t.inputPos = s.inputPos + 1 ∧ t.output = s.output ∧
      Claims.Traces s t 0x00000073#32 { syscall := some (.read item), writeback := some (10, v) }

/-- R252, R118: while no answer is available the read waits: nothing changes, and once the host has answered, the same
ecall completes (decision D30, the spec's own). That the model's step answers the same state is its own form of the wait
(log entry 5, DEDUCED). -/
def Obligations.EcallReadWaitsForAnAnswer : Prop :=
  ∀ (s : State) (item : InputItem), s.run = .running → s.fetch = .ok 0x00000073#32 → s.reg 17 = 1#32 →
    s.inputPos = s.input.length →
    step s = .next s ∧
      ∃ t, step { s with input := s.input ++ [item] } = .next t ∧ t.count = s.count + 1 ∧ t.pc = s.pc + 4#32 ∧
        t.inputPos = t.input.length

/-- R253: selector 2 appends the low byte of x10 to the output stream; no register changes (decisions D18 and D29, the
spec's own). -/
def Obligations.EcallWriteAppendsTheLowByte : Prop :=
  ∀ s : State, s.reg 17 = 2#32 →
    ∃ t c, exec .ecall s = .next t ∧ c.toNat = (s.reg 10).toNat % 256 ∧ t.output = s.output ++ [c] ∧
      Claims.Advances s t (s.pc + 4#32) ∧ t.run = s.run ∧ Claims.RegistersKept s t ∧ Claims.MemoryKept s t ∧
      t.inputPos = s.inputPos ∧ Claims.Traces s t 0x00000073#32 { syscall := some (.write c) }

/-- R254: selectors 3 and 93 retire fully and enter Halted; nothing else halts the engine (decisions D16 and D18, the
spec's own). -/
def Obligations.EcallHaltRetiresAndHalts : Prop :=
  (∀ s : State, s.reg 17 = 3#32 ∨ s.reg 17 = 93#32 →
    ∃ t, exec .ecall s = .next t ∧ t.run = .halted ∧ Claims.Advances s t (s.pc + 4#32) ∧ Claims.RegistersKept s t ∧
      Claims.MemoryKept s t ∧ Claims.StreamsKept s t ∧ Claims.Traces s t 0x00000073#32 { syscall := some .halt }) ∧
  (∀ (i : Instr) (s t : State), exec i s = .next t → s.run ≠ .halted → t.run = .halted →
    i = .ecall ∧ (s.reg 17 = 3#32 ∨ s.reg 17 = 93#32))

/-- R255: every other selector, compared as the whole of x17, makes ecall a no-op that retires (decision D18, the spec's
own). -/
def Obligations.EcallOtherSelectorsDoNothing : Prop :=
  ∀ s : State, (s.reg 17).toNat ∉ [1, 2, 3, 93] →
    ∃ t, exec .ecall s = .next t ∧ Claims.Advances s t (s.pc + 4#32) ∧ t.run = s.run ∧ Claims.RegistersKept s t ∧
      Claims.MemoryKept s t ∧ Claims.StreamsKept s t ∧ Claims.Traces s t 0x00000073#32 { syscall := some .noService }

/-! ### The step -/

/-- R102, R103, R106: a running step whose fetch is admitted runs what the fetched word decodes to, with nothing
around it. -/
def Obligations.StepRunsTheDecodedInstruction : Prop :=
  ∀ (s : State) (w : Word), s.run = .running → s.fetch = .ok w →
    (∀ i, decode w = .instr i → step s = exec i s) ∧ (decode w = .unknown → step s = execUnknown w s)

/-- R111: a word of the class Unknown retires as a no-op, with the text `unknown` and no annotation (decision D15, the
spec's own). -/
def Obligations.UnknownWordsRetireAsNoOps : Prop :=
  ∀ (s : State) (w : Word), s.run = .running → s.fetch = .ok w → decode w = .unknown →
    ∃ t, step s = .next t ∧ Claims.Advances s t (s.pc + 4#32) ∧ t.run = .running ∧ Claims.RegistersKept s t ∧
      Claims.MemoryKept s t ∧ Claims.StreamsKept s t ∧ Claims.Traces s t w {} ∧
      disassembleFull s.pc w = ['u', 'n', 'k', 'n', 'o', 'w', 'n']

/-- The one data access of an instruction (R47): kind, address and size. -/
def Claims.dataAccess (s : State) : Instr → Option (AccessKind × Word × Width)
  | .lb _ rs1 imm | .lbu _ rs1 imm => some (.read, effectiveAddress s rs1 imm, .byte)
  | .lh _ rs1 imm | .lhu _ rs1 imm => some (.read, effectiveAddress s rs1 imm, .half)
  | .lw _ rs1 imm => some (.read, effectiveAddress s rs1 imm, .word)
  | .sb rs1 _ imm => some (.write, effectiveAddress s rs1 imm, .byte)
  | .sh rs1 _ imm => some (.write, effectiveAddress s rs1 imm, .half)
  | .sw rs1 _ imm => some (.write, effectiveAddress s rs1 imm, .word)
  | _ => none

/-- The instruction makes a data access, and the memory collaborator refuses it. -/
def Claims.RefusedAccess (s : State) (i : Instr) : Prop :=
  ∃ kind a width, Claims.dataAccess s i = some (kind, a, width) ∧ s.admits kind a width = false

/-- R112: a refused access, of the fetch, a load or a store, ends the step in Aborted with nothing committed, and a step
enters Aborted in no other way; Aborted is terminal and yields no run result (decision D20, the spec's own). That an
abort is a next state, and that Aborted has none, are log entries 10 and 11 (DEDUCED). -/
def Obligations.RefusedAccessAbortsAndCommitsNothing : Prop :=
  (∀ s : State, s.run = .running → s.admits .read s.pc .word = false → step s = .next (Claims.aborted s)) ∧
  (∀ (s : State) (w : Word) (i : Instr), s.run = .running → s.fetch = .ok w → decode w = .instr i →
    Claims.RefusedAccess s i → step s = .next (Claims.aborted s)) ∧
  (∀ s t : State, step s = .next t → t.run = .aborted → t = Claims.aborted s) ∧
  (∀ s : State, s.run = .aborted → runResult s = none ∧ ∀ t, step s ≠ .next t)

/-- R303, R47: an instruction aborts exactly when the memory collaborator refuses its one data access. So no instruction
but a load or a store aborts; in particular an ecall cannot (decision D20, the spec's own). -/
def Obligations.OnlyLoadsAndStoresAbortAfterTheFetch : Prop :=
  ∀ (s : State) (i : Instr), s.run = .running →
    ((∃ t, exec i s = .next t ∧ t.run = .aborted) ↔ Claims.RefusedAccess s i) ∧
    (Claims.RefusedAccess s i → exec i s = .next (Claims.aborted s))

/-- R101: the engine starts Running at the entry address with all registers zero, and has no step in Halted and
Aborted; from Running it enters Halted only by the retirement of a halting ecall (R79, R110, R254; decisions D14, D16 and
D18, the spec's own), and Aborted only where the fetch or the data access of the fetched instruction is refused (decision
D20, the spec's own). That Running always has a next state is the model's form of R252's wait, where "the step has not
happened": the step of a blocked read answers the same state (log entry 5, DEDUCED). That an abort is a next state, and
that a terminal state answers none, are log entries 10 and 11 (DEDUCED). -/
def Obligations.RunStateChangesInExactlyTwoWays : Prop :=
  (∀ (entry : Word) (image : Memory) (deny : List DenyRule) (input : List InputItem) (eofValue : Word) (traceOn : Bool)
    (s : State), s = State.boot entry image deny input eofValue traceOn →
    s.run = .running ∧ s.pc = entry ∧ ∀ r, s.reg r = 0#32) ∧
  (∀ s : State, (∃ t, step s = .next t) ↔ s.run = .running) ∧
  (∀ s t : State, step s = .next t → t.run = .halted →
    s.fetch = .ok 0x00000073#32 ∧ (s.reg 17 = 3#32 ∨ s.reg 17 = 93#32) ∧ t.count = s.count + 1) ∧
  (∀ s t : State, step s = .next t → t.run = .aborted →
    s.admits .read s.pc .word = false ∨
      ∃ w i, s.fetch = .ok w ∧ decode w = .instr i ∧ Claims.RefusedAccess s i)

/-- R109: a step adds exactly one to the count, unless it aborts or is the wait of a blocked read (R118), and then it
adds nothing (decisions D15, D16 and D20, the spec's own). That the wait is a step which answers the same state is log
entry 5 (DEDUCED). -/
def Obligations.CountGrowsByOneAtEachRetirement : Prop :=
  ∀ s t : State, step s = .next t →
    (t.run ≠ .aborted → s.blocked = false → t.count = s.count + 1) ∧
    (s.blocked = true → t = s) ∧
    (t.run = .aborted → t.count = s.count) ∧
    (t.count = s.count + 1 ∨ t.count = s.count ∧ (t = s ∨ t = Claims.aborted s))

/-- The condition of a branch holds (R211 to R216). -/
def Claims.taken (s : State) : Instr → Bool
  | .beq rs1 rs2 _ => decide (s.reg rs1 = s.reg rs2)
  | .bne rs1 rs2 _ => decide (s.reg rs1 ≠ s.reg rs2)
  | .blt rs1 rs2 _ => decide ((s.reg rs1).toInt < (s.reg rs2).toInt)
  | .bge rs1 rs2 _ => decide ((s.reg rs1).toInt ≥ (s.reg rs2).toInt)
  | .bltu rs1 rs2 _ => decide ((s.reg rs1).toNat < (s.reg rs2).toNat)
  | .bgeu rs1 rs2 _ => decide ((s.reg rs1).toNat ≥ (s.reg rs2).toNat)
  | _ => false

/-- R108: each retirement moves the PC once, to pc + 4 unless the fetched word is a taken branch, a jal or a jalr; a
step that aborts or waits (log entry 5, DEDUCED) leaves the PC alone (decision D5, the spec's own, for the wrapping of
pc + 4). -/
def Obligations.OnlyBranchesAndJumpsSetThePc : Prop :=
  ∀ s t : State, step s = .next t →
    (t.count = s.count → t.pc = s.pc) ∧
    (t.count = s.count + 1 → t.pc ≠ s.pc + 4#32 →
      ∃ w i, s.fetch = .ok w ∧ decode w = .instr i ∧
        (Claims.taken s i = true ∨ (∃ rd offset, i = .jal rd offset) ∨ ∃ rd rs1 imm, i = .jalr rd rs1 imm))

/-! ### Frames over all instructions -/

/-- R23: the only register an instruction writes is its destination, or x10 for ecall with selector 1; every other
register reads as before. -/
def Obligations.OnlyTheNamedRegisterIsWritten : Prop :=
  ∀ (i : Instr) (s t : State) (r : Reg), exec i s = .next t → i.dest? ≠ some r →
    ¬ (i = .ecall ∧ s.reg 17 = 1#32 ∧ r = 10) → t.reg r = s.reg r

/-- R107: the write-back of every retirement changes the requested register and no other, and nothing where the index is
0; the write of a selector-1 ecall to x10 is never discarded. So register 0 reads 0 (R22), an instruction with rd = 0
changes no register, and it still retires (R22). -/
def Obligations.WritesToRegisterZeroAreDiscarded : Prop :=
  (∀ (s : State) (w : Word) (out : Out) (r : Reg), (s.retire w out).reg r =
    match out.wb with
    | none => s.reg r
    | some (rd, v) => if r = rd ∧ rd ≠ 0 then v else s.reg r) ∧
  (∀ (s : State) (item : InputItem), s.reg 17 = 1#32 → s.nextInput = some item →
    ∃ t, exec .ecall s = .next t ∧ t.reg 10 = inputValue s.eofValue item) ∧
  (∀ s : State, s.reg 0 = 0#32) ∧
  (∀ (i : Instr) (s t : State), i.dest? = some 0 → exec i s = .next t → Claims.RegistersKept s t) ∧
  (∀ (i : Instr) (s : State), i.dest? = some 0 → s.deny = [] → ∃ t, exec i s = .next t ∧ t.count = s.count + 1)

/-- The registers an instruction reads (R24). -/
def Claims.sources (s : State) : Instr → List Reg
  | .add _ rs1 rs2 | .sub _ rs1 rs2 | .sll _ rs1 rs2 | .slt _ rs1 rs2 | .sltu _ rs1 rs2 | .xor _ rs1 rs2
  | .srl _ rs1 rs2 | .sra _ rs1 rs2 | .or _ rs1 rs2 | .and _ rs1 rs2 | .mul _ rs1 rs2 | .mulh _ rs1 rs2
  | .div _ rs1 rs2 | .divu _ rs1 rs2 | .rem _ rs1 rs2 | .remu _ rs1 rs2 => [rs1, rs2]
  | .addi _ rs1 _ | .slti _ rs1 _ | .sltiu _ rs1 _ | .xori _ rs1 _ | .ori _ rs1 _ | .andi _ rs1 _ | .slli _ rs1 _
  | .srli _ rs1 _ | .srai _ rs1 _ | .lb _ rs1 _ | .lh _ rs1 _ | .lw _ rs1 _ | .lbu _ rs1 _ | .lhu _ rs1 _
  | .jalr _ rs1 _ => [rs1]
  | .sb rs1 rs2 _ | .sh rs1 rs2 _ | .sw rs1 rs2 _ | .beq rs1 rs2 _ | .bne rs1 rs2 _ | .blt rs1 rs2 _
  | .bge rs1 rs2 _ | .bltu rs1 rs2 _ | .bgeu rs1 rs2 _ => [rs1, rs2]
  | .lui _ _ | .auipc _ _ | .jal _ _ => []
  | .ecall => if s.reg 17 = 2#32 then [17, 10] else [17]

/-- R24: an instruction reads no register but those R24 lists for it: changing any other register changes nothing in
what the instruction does, but for that register itself. -/
def Obligations.InstructionsReadOnlyTheirSources : Prop :=
  ∀ (i : Instr) (s : State) (r : Reg) (v : Word), r ∉ Claims.sources s i →
    ∃ t t', exec i s = .next t ∧ exec i { s with regs := s.regs.set r v } = .next t' ∧
      (∀ q, q ≠ r → t'.reg q = t.reg q) ∧
      { t' with regs := t.regs } = t

/-- R47: no instruction but the three stores changes memory. -/
def Obligations.OnlyStoresChangeMemory : Prop :=
  ∀ (i : Instr) (s t : State), exec i s = .next t →
    (∀ rs1 rs2 imm, i ∉ [.sb rs1 rs2 imm, .sh rs1 rs2 imm, .sw rs1 rs2 imm]) → Claims.MemoryKept s t

/-- R34, R251, R253: only ecall moves a stream: the input position by selector 1, the output by selector 2, by one item
each. -/
def Obligations.OnlyEcallMovesTheStreams : Prop :=
  ∀ (i : Instr) (s t : State), exec i s = .next t →
    (t.inputPos ≠ s.inputPos → i = .ecall ∧ s.reg 17 = 1#32 ∧ t.inputPos = s.inputPos + 1) ∧
    (t.output ≠ s.output → i = .ecall ∧ s.reg 17 = 2#32 ∧ t.output.length = s.output.length + 1)

/-- R7: no step changes a parameter (the admission predicate of `MEM`, `INPUT`, `EOF_VALUE`, `TRACE`). -/
def Obligations.StepsKeepTheParameters : Prop :=
  ∀ s t : State, step s = .next t → Claims.ParametersKept s t

/-! ### Reset and invariant -/

/-- R320, R321: the start of a run, for every entry address, image, admission predicate, input, `EOF_VALUE` and
`TRACE` (decisions D19, D27 and D28, the spec's own). `State.reset` is one such start; the parameters it takes are the
model's choices (log entries 1 to 7). -/
def Obligations.BootStateIsAsTheSpecSays : Prop :=
  (∀ (entry : Word) (image : Memory) (deny : List DenyRule) (input : List InputItem) (eofValue : Word) (traceOn : Bool)
    (s : State), s = State.boot entry image deny input eofValue traceOn →
    (∀ r, s.reg r = 0#32) ∧ s.pc = entry ∧ s.run = .running ∧ s.count = 0 ∧ s.mem = image ∧ s.inputPos = 0 ∧
      s.output = [] ∧ s.trace = []) ∧
  ∃ entry image deny input eofValue traceOn, State.reset = State.boot entry image deny input eofValue traceOn

/-- The invariant of Safety.lean holds at reset, and at every start whose image is canonical. -/
def Obligations.InvariantHoldsAtReset : Prop :=
  State.reset.Inv ∧
  ∀ (entry : Word) (image : Memory) (deny : List DenyRule) (input : List InputItem) (eofValue : Word) (traceOn : Bool),
    Memory.wf image = true → (State.boot entry image deny input eofValue traceOn).Inv

/-- Every step from a state with the invariant leads to a state with the invariant: memory stays canonical, the cell of
register 0 stays 0, input is never read beyond its answers, and the trace numbers the retired instructions from 1
without gap (R22, R34, R114, R116). -/
def Obligations.EveryStepKeepsTheInvariant : Prop :=
  ∀ s t : State, s.Inv → step s = .next t → t.Inv

/-! ### Trace -/

/-- The store annotation of R115: the address and the value written. -/
def Claims.storeNote (s : State) : Instr → Option (Word × StoredValue)
  | .sb rs1 rs2 imm => some (effectiveAddress s rs1 imm, .byte ((s.reg rs2).setWidth 8))
  | .sh rs1 rs2 imm => some (effectiveAddress s rs1 imm, .half ((s.reg rs2).setWidth 16))
  | .sw rs1 rs2 imm => some (effectiveAddress s rs1 imm, .word (s.reg rs2))
  | _ => none

/-- The write-back annotation of R115, from the state after: only a write-back that commits. -/
def Claims.writebackNote (s t : State) (i : Instr) : Option (Reg × Word) :=
  match i.dest? with
  | some rd => if rd = 0 then none else some (rd, t.reg rd)
  | none => if i = .ecall ∧ s.reg 17 = 1#32 then some (10, t.reg 10) else none

/-- The syscall annotation of R115. -/
def Claims.syscallNote (s : State) (i : Instr) : Option SyscallNote :=
  if i ≠ .ecall then none
  else if s.reg 17 = 1#32 then (s.input[s.inputPos]?).map .read
  else if s.reg 17 = 2#32 then some (.write ((s.reg 10).setWidth 8))
  else if s.reg 17 = 3#32 ∨ s.reg 17 = 93#32 then some .halt
  else some .noService

/-- The annotation of R115, for an instruction and for an Unknown word. -/
def Claims.note (s t : State) : Decoded → Note
  | .instr i =>
    { store := Claims.storeNote s i, taken := Claims.taken s i, writeback := Claims.writebackNote s t i,
      syscall := Claims.syscallNote s i }
  | .unknown => {}

/-- R114, R115: a retired instruction adds exactly one record, with the count after the increment, its own address, the
fetched word, its untruncated text and the annotation of what it did; without a sink, and in a step that does not
retire, nothing is added (decision D26, the spec's own). -/
def Obligations.EachRetirementAddsOneTraceRecord : Prop :=
  ∀ s t : State, step s = .next t →
    (t.count = s.count + 1 → ∃ w, s.fetch = .ok w ∧ Claims.Traces s t w (Claims.note s t (decode w))) ∧
    (t.count = s.count → t.trace = s.trace)

/-- A state as it would be without a trace sink. -/
def Claims.untraced (s : State) : State := { s with traceOn := false, trace := [] }

/-- R116: records come in retirement order, and the trace alters no architectural effect: a step without a sink does
what the step with one does, but for the trace. -/
def Obligations.TraceHasNoArchitecturalEffect : Prop :=
  ∀ s : State,
    (∀ t, step s = .next t → s.trace <+: t.trace ∧ step (Claims.untraced s) = .next (Claims.untraced t)) ∧
    (∀ f, step s = .fault f → step (Claims.untraced s) = .fault f)

/-! ### Disassembler -/

/-- The text of a register: `x` and its decimal index (R272). -/
def Claims.x (r : Reg) : Text := 'x' :: Nat.toDigits 10 r.val

/-- Signed decimal, with a leading minus for a negative value (R274). -/
def Claims.signed (v : Int) : Text := if v < 0 then '-' :: Nat.toDigits 10 v.natAbs else Nat.toDigits 10 v.toNat

/-- R275 to R284: the text of every well-formed word of each family, from its operands (decision D23, the spec's own). -/
def Obligations.DisassemblyTextOfEachFamily : Prop :=
  ∀ (a : Word) (rd rs1 rs2 : Reg) (imm : BitVec 12) (imm20 : BitVec 20),
    (∀ i ∈ [Instr.add rd rs1 rs2, .sub rd rs1 rs2, .sll rd rs1 rs2, .slt rd rs1 rs2, .sltu rd rs1 rs2, .xor rd rs1 rs2,
        .srl rd rs1 rs2, .sra rd rs1 rs2, .or rd rs1 rs2, .and rd rs1 rs2],
      disassembleFull a (encode i) =
        i.mnemonic ++ [' '] ++ Claims.x rd ++ [',', ' '] ++ Claims.x rs1 ++ [',', ' '] ++ Claims.x rs2) ∧
    (∀ i ∈ [Instr.addi rd rs1 imm, .slti rd rs1 imm, .sltiu rd rs1 imm, .xori rd rs1 imm, .ori rd rs1 imm,
        .andi rd rs1 imm],
      disassembleFull a (encode i) =
        i.mnemonic ++ [' '] ++ Claims.x rd ++ [',', ' '] ++ Claims.x rs1 ++ [',', ' '] ++ Claims.signed imm.toInt) ∧
    (∀ i ∈ [Instr.slli rd rs1 imm, .srli rd rs1 imm, .srai rd rs1 imm], i.wellFormed = true →
      disassembleFull a (encode i) = i.mnemonic ++ [' '] ++ Claims.x rd ++ [',', ' '] ++ Claims.x rs1 ++ [',', ' '] ++
        Nat.toDigits 10 (imm.toNat % 32)) ∧
    (∀ i ∈ [Instr.lb rd rs1 imm, .lh rd rs1 imm, .lw rd rs1 imm, .lbu rd rs1 imm, .lhu rd rs1 imm, .jalr rd rs1 imm],
      disassembleFull a (encode i) =
        i.mnemonic ++ [' '] ++ Claims.x rd ++ [',', ' '] ++ Claims.signed imm.toInt ++ ['('] ++ Claims.x rs1 ++ [')']) ∧
    (∀ i ∈ [Instr.sb rs1 rs2 imm, .sh rs1 rs2 imm, .sw rs1 rs2 imm],
      disassembleFull a (encode i) =
        i.mnemonic ++ [' '] ++ Claims.x rs2 ++ [',', ' '] ++ Claims.signed imm.toInt ++ ['('] ++ Claims.x rs1 ++
          [')']) ∧
    (∀ offset : BitVec 13, ∀ i ∈ [Instr.beq rs1 rs2 offset, .bne rs1 rs2 offset, .blt rs1 rs2 offset,
        .bge rs1 rs2 offset, .bltu rs1 rs2 offset, .bgeu rs1 rs2 offset], i.wellFormed = true →
      disassembleFull a (encode i) =
        i.mnemonic ++ [' '] ++ Claims.x rs1 ++ [',', ' '] ++ Claims.x rs2 ++ [',', ' '] ++
          Claims.signed offset.toInt) ∧
    (∀ i ∈ [Instr.lui rd imm20, .auipc rd imm20],
      disassembleFull a (encode i) =
        i.mnemonic ++ [' '] ++ Claims.x rd ++ [',', ' ', '0', 'x'] ++ Nat.toDigits 16 imm20.toNat) ∧
    (∀ offset : BitVec 21, (Instr.jal rd offset).wellFormed = true →
      disassembleFull a (encode (.jal rd offset)) =
        ['j', 'a', 'l', ' '] ++ Claims.x rd ++ [',', ' '] ++ Claims.signed offset.toInt) ∧
    disassembleFull a 0x00000073#32 = ['e', 'c', 'a', 'l', 'l']

/-- R285, R286, R271: the text is `unknown` exactly for the Unknown words and the six M instructions, and the text is a
function of what the one decoder gives (decision D24, the spec's own). -/
def Obligations.UnknownAndMultiplyWordsPrintUnknown : Prop :=
  (∀ a w : Word, disassembleFull a w = ['u', 'n', 'k', 'n', 'o', 'w', 'n'] ↔
    decode w = .unknown ∨ ∃ rd rs1 rs2, ∃ i ∈ [Instr.mul rd rs1 rs2, .mulh rd rs1 rs2, .div rd rs1 rs2,
      .divu rd rs1 rs2, .rem rd rs1 rs2, .remu rd rs1 rs2], decode w = .instr i) ∧
  (∀ a w a' w' : Word, decode w = decode w' → disassembleFull a w = disassembleFull a' w')

/-- R274: the decimal text of a number reads back as the number, has only the digits 0 to 9, and begins with 0 only for
zero itself. -/
def Obligations.DecimalTextReadsBack : Prop :=
  ∀ n : Nat, (decimal n).foldl (fun acc c => 10 * acc + (c.toNat - '0'.toNat)) 0 = n ∧
    (∀ c ∈ decimal n, '0' ≤ c ∧ c ≤ '9') ∧ ((decimal n).head? = some '0' → n = 0)

/-- R287, R288: the result is the first `maxlen` characters of the full text, the whole text where it fits; the text is
ASCII; and the address does not affect it (decisions D22 and D25, the spec's own). -/
def Obligations.TruncationKeepsTheFirstCharacters : Prop :=
  ∀ (a a' w : Word) (maxlen : Nat),
    (∃ rest, disassembleFull a w = disassemble a w maxlen ++ rest) ∧
    (disassemble a w maxlen).length = min maxlen (disassembleFull a w).length ∧
    ((disassembleFull a w).length ≤ maxlen → disassemble a w maxlen = disassembleFull a w) ∧
    (∀ c ∈ disassembleFull a w, c.toNat < 128) ∧
    disassemble a w maxlen = disassemble a' w maxlen

/-! ### Loading and the end of a run -/

/-- What a loader does for one instruction (log entry 9, the model's own): the placed word is what the next step
fetches and runs. -/
def Obligations.PlacedWordIsFetchedNext : Prop :=
  ∀ (s : State) (w : Word), Memory.wf s.mem = true →
    (s.withFetchWord 32 w.toNat).fetch = .ok w ∧
    step (s.withFetchWord 32 w.toNat) = execDecoded w (s.withFetchWord 32 w.toNat) (decode w) ∧
    ∀ a, (∀ k < 4, a ≠ s.pc + BitVec.ofNat 32 k) →
      Memory.byteAt (s.withFetchWord 32 w.toNat).mem a = Memory.byteAt s.mem a

/-- R117: a run result exists exactly once the halting ecall has retired, and it is the count with that ecall in it. -/
def Obligations.RunResultIsTheCountAtHalt : Prop :=
  (∀ s : State, (∃ n, runResult s = some n) ↔ s.run = .halted) ∧
  (∀ s t : State, step s = .next t → t.run = .halted → runResult t = some (s.count + 1))

/-- R34, R118: the engine is blocked exactly where it is Running, the word at the PC is ecall, x17 is 1 and every answer
of the host is consumed (decisions D14, D18 and D30, the spec's own); and a step leaves the whole state as it was exactly
there. That the wait is a step which answers the same state is log entry 5 (DEDUCED). -/
def Obligations.StepWaitsExactlyWhenBlocked : Prop :=
  (∀ s : State, s.blocked = true ↔
    s.run = .running ∧ s.fetch = .ok 0x00000073#32 ∧ s.reg 17 = 1#32 ∧ s.input.length ≤ s.inputPos) ∧
  (∀ s : State, step s = .next s ↔ s.blocked = true)
end

