-- ==== Sys2Proof/Laws/Encoding.lean ====
section
/-! SUPPORT. Fields of encoded words, and encodings of extracted fields: what the encoder's layouts and the decoder's
extractions (R61 to R67) say of each other, once per format. -/

namespace Sys2Proof.Laws

@[simp] theorem getLsbD_place {k n lo i : Nat} (f : BitVec k) :
    (place n lo f).getLsbD i = (decide (i < n) && (!decide (i < lo) && f.getLsbD (i - lo))) := by
  simp only [place, BitVec.getLsbD_shiftLeft, BitVec.getLsbD_setWidth]
  by_cases h : i < n
  · have : i - lo < n := by omega
    simp [h, this]
  · simp [h]

@[simp] theorem getElem_place {k n lo i : Nat} (f : BitVec k) (h : i < n) :
    (place n lo f)[i] = (!decide (i < lo) && f.getLsbD (i - lo)) := by
  rw [← BitVec.getLsbD_eq_getElem, getLsbD_place]
  simp [h]

@[simp] theorem regBits_toFin (b : BitVec 5) : regBits b.toFin = b := rfl

@[simp] theorem toFin_regBits (r : Reg) : (regBits r).toFin = r := rfl

@[simp] theorem opcode_encodeR (f7 : BitVec 7) (f3 : BitVec 3) (op : BitVec 7) (rd rs1 rs2 : Reg) :
    opcode (encodeR f7 f3 op rd rs1 rs2) = op := by
  ext i hi; interval_cases i <;> simp [opcode, encodeR]

@[simp] theorem funct3_encodeR (f7 : BitVec 7) (f3 : BitVec 3) (op : BitVec 7) (rd rs1 rs2 : Reg) :
    funct3 (encodeR f7 f3 op rd rs1 rs2) = f3 := by
  ext i hi; interval_cases i <;> simp [funct3, encodeR]

@[simp] theorem funct7_encodeR (f7 : BitVec 7) (f3 : BitVec 3) (op : BitVec 7) (rd rs1 rs2 : Reg) :
    funct7 (encodeR f7 f3 op rd rs1 rs2) = f7 := by
  ext i hi; interval_cases i <;> simp [funct7, encodeR]

@[simp] theorem rdOf_encodeR (f7 : BitVec 7) (f3 : BitVec 3) (op : BitVec 7) (rd rs1 rs2 : Reg) :
    rdOf (encodeR f7 f3 op rd rs1 rs2) = rd := by
  have field : (encodeR f7 f3 op rd rs1 rs2).extractLsb' 7 5 = regBits rd := by
    ext i hi; interval_cases i <;> simp [encodeR]
  rw [rdOf, field]; rfl

@[simp] theorem rs1Of_encodeR (f7 : BitVec 7) (f3 : BitVec 3) (op : BitVec 7) (rd rs1 rs2 : Reg) :
    rs1Of (encodeR f7 f3 op rd rs1 rs2) = rs1 := by
  have field : (encodeR f7 f3 op rd rs1 rs2).extractLsb' 15 5 = regBits rs1 := by
    ext i hi; interval_cases i <;> simp [encodeR]
  rw [rs1Of, field]; rfl

@[simp] theorem rs2Of_encodeR (f7 : BitVec 7) (f3 : BitVec 3) (op : BitVec 7) (rd rs1 rs2 : Reg) :
    rs2Of (encodeR f7 f3 op rd rs1 rs2) = rs2 := by
  have field : (encodeR f7 f3 op rd rs1 rs2).extractLsb' 20 5 = regBits rs2 := by
    ext i hi; interval_cases i <;> simp [encodeR]
  rw [rs2Of, field]; rfl

@[simp] theorem opcode_encodeI (f3 : BitVec 3) (op : BitVec 7) (rd rs1 : Reg) (imm : BitVec 12) :
    opcode (encodeI f3 op rd rs1 imm) = op := by
  ext i hi; interval_cases i <;> simp [opcode, encodeI]

@[simp] theorem funct3_encodeI (f3 : BitVec 3) (op : BitVec 7) (rd rs1 : Reg) (imm : BitVec 12) :
    funct3 (encodeI f3 op rd rs1 imm) = f3 := by
  ext i hi; interval_cases i <;> simp [funct3, encodeI]

@[simp] theorem rdOf_encodeI (f3 : BitVec 3) (op : BitVec 7) (rd rs1 : Reg) (imm : BitVec 12) :
    rdOf (encodeI f3 op rd rs1 imm) = rd := by
  have field : (encodeI f3 op rd rs1 imm).extractLsb' 7 5 = regBits rd := by
    ext i hi; interval_cases i <;> simp [encodeI]
  rw [rdOf, field]; rfl

@[simp] theorem rs1Of_encodeI (f3 : BitVec 3) (op : BitVec 7) (rd rs1 : Reg) (imm : BitVec 12) :
    rs1Of (encodeI f3 op rd rs1 imm) = rs1 := by
  have field : (encodeI f3 op rd rs1 imm).extractLsb' 15 5 = regBits rs1 := by
    ext i hi; interval_cases i <;> simp [encodeI]
  rw [rs1Of, field]; rfl

@[simp] theorem rawI_encodeI (f3 : BitVec 3) (op : BitVec 7) (rd rs1 : Reg) (imm : BitVec 12) :
    rawI (encodeI f3 op rd rs1 imm) = imm := by
  ext i hi; interval_cases i <;> simp [rawI, encodeI]

@[simp] theorem opcode_encodeS (f3 : BitVec 3) (op : BitVec 7) (rs1 rs2 : Reg) (imm : BitVec 12) :
    opcode (encodeS f3 op rs1 rs2 imm) = op := by
  ext i hi; interval_cases i <;> simp [opcode, encodeS]

@[simp] theorem funct3_encodeS (f3 : BitVec 3) (op : BitVec 7) (rs1 rs2 : Reg) (imm : BitVec 12) :
    funct3 (encodeS f3 op rs1 rs2 imm) = f3 := by
  ext i hi; interval_cases i <;> simp [funct3, encodeS]

@[simp] theorem rs1Of_encodeS (f3 : BitVec 3) (op : BitVec 7) (rs1 rs2 : Reg) (imm : BitVec 12) :
    rs1Of (encodeS f3 op rs1 rs2 imm) = rs1 := by
  have field : (encodeS f3 op rs1 rs2 imm).extractLsb' 15 5 = regBits rs1 := by
    ext i hi; interval_cases i <;> simp [encodeS]
  rw [rs1Of, field]; rfl

@[simp] theorem rs2Of_encodeS (f3 : BitVec 3) (op : BitVec 7) (rs1 rs2 : Reg) (imm : BitVec 12) :
    rs2Of (encodeS f3 op rs1 rs2 imm) = rs2 := by
  have field : (encodeS f3 op rs1 rs2 imm).extractLsb' 20 5 = regBits rs2 := by
    ext i hi; interval_cases i <;> simp [encodeS]
  rw [rs2Of, field]; rfl

@[simp] theorem rawS_encodeS (f3 : BitVec 3) (op : BitVec 7) (rs1 rs2 : Reg) (imm : BitVec 12) :
    rawS (encodeS f3 op rs1 rs2 imm) = imm := by
  ext i hi; interval_cases i <;> simp [rawS, encodeS]

@[simp] theorem opcode_encodeB (f3 : BitVec 3) (op : BitVec 7) (rs1 rs2 : Reg) (offset : BitVec 13) :
    opcode (encodeB f3 op rs1 rs2 offset) = op := by
  ext i hi; interval_cases i <;> simp [opcode, encodeB]

@[simp] theorem funct3_encodeB (f3 : BitVec 3) (op : BitVec 7) (rs1 rs2 : Reg) (offset : BitVec 13) :
    funct3 (encodeB f3 op rs1 rs2 offset) = f3 := by
  ext i hi; interval_cases i <;> simp [funct3, encodeB]

@[simp] theorem rs1Of_encodeB (f3 : BitVec 3) (op : BitVec 7) (rs1 rs2 : Reg) (offset : BitVec 13) :
    rs1Of (encodeB f3 op rs1 rs2 offset) = rs1 := by
  have field : (encodeB f3 op rs1 rs2 offset).extractLsb' 15 5 = regBits rs1 := by
    ext i hi; interval_cases i <;> simp [encodeB]
  rw [rs1Of, field]; rfl

@[simp] theorem rs2Of_encodeB (f3 : BitVec 3) (op : BitVec 7) (rs1 rs2 : Reg) (offset : BitVec 13) :
    rs2Of (encodeB f3 op rs1 rs2 offset) = rs2 := by
  have field : (encodeB f3 op rs1 rs2 offset).extractLsb' 20 5 = regBits rs2 := by
    ext i hi; interval_cases i <;> simp [encodeB]
  rw [rs2Of, field]; rfl

@[simp] theorem opcode_encodeU (op : BitVec 7) (rd : Reg) (imm20 : BitVec 20) :
    opcode (encodeU op rd imm20) = op := by
  ext i hi; interval_cases i <;> simp [opcode, encodeU]

@[simp] theorem rdOf_encodeU (op : BitVec 7) (rd : Reg) (imm20 : BitVec 20) :
    rdOf (encodeU op rd imm20) = rd := by
  have field : (encodeU op rd imm20).extractLsb' 7 5 = regBits rd := by
    ext i hi; interval_cases i <;> simp [encodeU]
  rw [rdOf, field]; rfl

@[simp] theorem rawU_encodeU (op : BitVec 7) (rd : Reg) (imm20 : BitVec 20) :
    rawU (encodeU op rd imm20) = imm20 := by
  ext i hi; interval_cases i <;> simp [rawU, encodeU]

@[simp] theorem opcode_encodeJ (op : BitVec 7) (rd : Reg) (offset : BitVec 21) :
    opcode (encodeJ op rd offset) = op := by
  ext i hi; interval_cases i <;> simp [opcode, encodeJ]

@[simp] theorem rdOf_encodeJ (op : BitVec 7) (rd : Reg) (offset : BitVec 21) :
    rdOf (encodeJ op rd offset) = rd := by
  have field : (encodeJ op rd offset).extractLsb' 7 5 = regBits rd := by
    ext i hi; interval_cases i <;> simp [encodeJ]
  rw [rdOf, field]; rfl

/-- A B-type word gives back an even offset (R65). -/
theorem rawB_encodeB (f3 : BitVec 3) (op : BitVec 7) (rs1 rs2 : Reg) (offset : BitVec 13) (even : evenB offset = true) :
    rawB (encodeB f3 op rs1 rs2 offset) = offset := by
  have bit0 : offset[0] = false := by simpa [evenB] using even
  ext i hi; interval_cases i <;> simp [rawB, encodeB, bit0]

/-- A J-type word gives back an even offset (R67). -/
theorem rawJ_encodeJ (op : BitVec 7) (rd : Reg) (offset : BitVec 21) (even : evenJ offset = true) :
    rawJ (encodeJ op rd offset) = offset := by
  have bit0 : offset[0] = false := by simpa [evenJ] using even
  ext i hi; interval_cases i <;> simp [rawJ, encodeJ, bit0]

/-- The offset of every B-type word is even (R65). -/
@[simp] theorem evenB_rawB (w : Word) : evenB (rawB w) = true := by simp [evenB, rawB]

/-- The offset of every J-type word is even (R67). -/
@[simp] theorem evenJ_rawJ (w : Word) : evenJ (rawJ w) = true := by simp [evenJ, rawJ]

/-! ### A word is the encoding of its own fields -/

theorem encodeR_fields (w : Word) : encodeR (funct7 w) (funct3 w) (opcode w) (rdOf w) (rs1Of w) (rs2Of w) = w := by
  simp only [encodeR, rdOf, rs1Of, rs2Of, regBits_toFin]
  ext i hi; interval_cases i <;> simp [opcode, funct3, funct7]

theorem encodeI_fields (w : Word) : encodeI (funct3 w) (opcode w) (rdOf w) (rs1Of w) (rawI w) = w := by
  simp only [encodeI, rdOf, rs1Of, regBits_toFin]
  ext i hi; interval_cases i <;> simp [opcode, funct3, rawI]

theorem encodeS_fields (w : Word) : encodeS (funct3 w) (opcode w) (rs1Of w) (rs2Of w) (rawS w) = w := by
  simp only [encodeS, rs1Of, rs2Of, regBits_toFin]
  ext i hi; interval_cases i <;> simp [opcode, funct3, rawS]

theorem encodeB_fields (w : Word) : encodeB (funct3 w) (opcode w) (rs1Of w) (rs2Of w) (rawB w) = w := by
  simp only [encodeB, rs1Of, rs2Of, regBits_toFin]
  ext i hi; interval_cases i <;> simp [opcode, funct3, rawB]

theorem encodeU_fields (w : Word) : encodeU (opcode w) (rdOf w) (rawU w) = w := by
  simp only [encodeU, rdOf, regBits_toFin]
  ext i hi; interval_cases i <;> simp [opcode, rawU]

theorem encodeJ_fields (w : Word) : encodeJ (opcode w) (rdOf w) (rawJ w) = w := by
  simp only [encodeJ, rdOf, regBits_toFin]
  ext i hi; interval_cases i <;> simp [opcode, rawJ]

end Sys2Proof.Laws
end

