-- ==== Sys2Proof/Laws/State.lean ====
section
/-! SUPPORT. One lemma per field per update of the state, each true by rfl, and what each update does to a register
read. No later proof unfolds an update. -/

namespace Sys2Proof.Machine

@[simp] theorem State.withMem_regs (s : State) (m : Memory) :
    (s.withMem m).regs = s.regs := rfl
@[simp] theorem State.withMem_pc (s : State) (m : Memory) :
    (s.withMem m).pc = s.pc := rfl
@[simp] theorem State.withMem_run (s : State) (m : Memory) :
    (s.withMem m).run = s.run := rfl
@[simp] theorem State.withMem_count (s : State) (m : Memory) :
    (s.withMem m).count = s.count := rfl
@[simp] theorem State.withMem_mem (s : State) (m : Memory) :
    (s.withMem m).mem = m := rfl
@[simp] theorem State.withMem_deny (s : State) (m : Memory) :
    (s.withMem m).deny = s.deny := rfl
@[simp] theorem State.withMem_input (s : State) (m : Memory) :
    (s.withMem m).input = s.input := rfl
@[simp] theorem State.withMem_inputPos (s : State) (m : Memory) :
    (s.withMem m).inputPos = s.inputPos := rfl
@[simp] theorem State.withMem_eofValue (s : State) (m : Memory) :
    (s.withMem m).eofValue = s.eofValue := rfl
@[simp] theorem State.withMem_output (s : State) (m : Memory) :
    (s.withMem m).output = s.output := rfl
@[simp] theorem State.withMem_traceOn (s : State) (m : Memory) :
    (s.withMem m).traceOn = s.traceOn := rfl
@[simp] theorem State.withMem_trace (s : State) (m : Memory) :
    (s.withMem m).trace = s.trace := rfl

@[simp] theorem State.consumeInput_regs (s : State) :
    (s.consumeInput).regs = s.regs := rfl
@[simp] theorem State.consumeInput_pc (s : State) :
    (s.consumeInput).pc = s.pc := rfl
@[simp] theorem State.consumeInput_run (s : State) :
    (s.consumeInput).run = s.run := rfl
@[simp] theorem State.consumeInput_count (s : State) :
    (s.consumeInput).count = s.count := rfl
@[simp] theorem State.consumeInput_mem (s : State) :
    (s.consumeInput).mem = s.mem := rfl
@[simp] theorem State.consumeInput_deny (s : State) :
    (s.consumeInput).deny = s.deny := rfl
@[simp] theorem State.consumeInput_input (s : State) :
    (s.consumeInput).input = s.input := rfl
@[simp] theorem State.consumeInput_inputPos (s : State) :
    (s.consumeInput).inputPos = s.inputPos + 1 := rfl
@[simp] theorem State.consumeInput_eofValue (s : State) :
    (s.consumeInput).eofValue = s.eofValue := rfl
@[simp] theorem State.consumeInput_output (s : State) :
    (s.consumeInput).output = s.output := rfl
@[simp] theorem State.consumeInput_traceOn (s : State) :
    (s.consumeInput).traceOn = s.traceOn := rfl
@[simp] theorem State.consumeInput_trace (s : State) :
    (s.consumeInput).trace = s.trace := rfl

@[simp] theorem State.outputWrite_regs (s : State) (b : Byte) :
    (s.outputWrite b).regs = s.regs := rfl
@[simp] theorem State.outputWrite_pc (s : State) (b : Byte) :
    (s.outputWrite b).pc = s.pc := rfl
@[simp] theorem State.outputWrite_run (s : State) (b : Byte) :
    (s.outputWrite b).run = s.run := rfl
@[simp] theorem State.outputWrite_count (s : State) (b : Byte) :
    (s.outputWrite b).count = s.count := rfl
@[simp] theorem State.outputWrite_mem (s : State) (b : Byte) :
    (s.outputWrite b).mem = s.mem := rfl
@[simp] theorem State.outputWrite_deny (s : State) (b : Byte) :
    (s.outputWrite b).deny = s.deny := rfl
@[simp] theorem State.outputWrite_input (s : State) (b : Byte) :
    (s.outputWrite b).input = s.input := rfl
@[simp] theorem State.outputWrite_inputPos (s : State) (b : Byte) :
    (s.outputWrite b).inputPos = s.inputPos := rfl
@[simp] theorem State.outputWrite_eofValue (s : State) (b : Byte) :
    (s.outputWrite b).eofValue = s.eofValue := rfl
@[simp] theorem State.outputWrite_output (s : State) (b : Byte) :
    (s.outputWrite b).output = s.output ++ [b] := rfl
@[simp] theorem State.outputWrite_traceOn (s : State) (b : Byte) :
    (s.outputWrite b).traceOn = s.traceOn := rfl
@[simp] theorem State.outputWrite_trace (s : State) (b : Byte) :
    (s.outputWrite b).trace = s.trace := rfl

@[simp] theorem State.abort_regs (s : State) (reason : AbortReason) :
    (s.abort reason).regs = s.regs := rfl
@[simp] theorem State.abort_pc (s : State) (reason : AbortReason) :
    (s.abort reason).pc = s.pc := rfl
@[simp] theorem State.abort_run (s : State) (reason : AbortReason) :
    (s.abort reason).run = .aborted := rfl
@[simp] theorem State.abort_count (s : State) (reason : AbortReason) :
    (s.abort reason).count = s.count := rfl
@[simp] theorem State.abort_mem (s : State) (reason : AbortReason) :
    (s.abort reason).mem = s.mem := rfl
@[simp] theorem State.abort_deny (s : State) (reason : AbortReason) :
    (s.abort reason).deny = s.deny := rfl
@[simp] theorem State.abort_input (s : State) (reason : AbortReason) :
    (s.abort reason).input = s.input := rfl
@[simp] theorem State.abort_inputPos (s : State) (reason : AbortReason) :
    (s.abort reason).inputPos = s.inputPos := rfl
@[simp] theorem State.abort_eofValue (s : State) (reason : AbortReason) :
    (s.abort reason).eofValue = s.eofValue := rfl
@[simp] theorem State.abort_output (s : State) (reason : AbortReason) :
    (s.abort reason).output = s.output := rfl
@[simp] theorem State.abort_traceOn (s : State) (reason : AbortReason) :
    (s.abort reason).traceOn = s.traceOn := rfl
@[simp] theorem State.abort_trace (s : State) (reason : AbortReason) :
    (s.abort reason).trace = s.trace := rfl

@[simp] theorem State.retire_regs (s : State) (w : Word) (out : Out) :
    (s.retire w out).regs = writeback s.regs out.wb := rfl
@[simp] theorem State.retire_pc (s : State) (w : Word) (out : Out) :
    (s.retire w out).pc = out.next := rfl
@[simp] theorem State.retire_run (s : State) (w : Word) (out : Out) :
    (s.retire w out).run = if out.halt then .halted else s.run := rfl
@[simp] theorem State.retire_count (s : State) (w : Word) (out : Out) :
    (s.retire w out).count = s.count + 1 := rfl
@[simp] theorem State.retire_mem (s : State) (w : Word) (out : Out) :
    (s.retire w out).mem = s.mem := rfl
@[simp] theorem State.retire_deny (s : State) (w : Word) (out : Out) :
    (s.retire w out).deny = s.deny := rfl
@[simp] theorem State.retire_input (s : State) (w : Word) (out : Out) :
    (s.retire w out).input = s.input := rfl
@[simp] theorem State.retire_inputPos (s : State) (w : Word) (out : Out) :
    (s.retire w out).inputPos = s.inputPos := rfl
@[simp] theorem State.retire_eofValue (s : State) (w : Word) (out : Out) :
    (s.retire w out).eofValue = s.eofValue := rfl
@[simp] theorem State.retire_output (s : State) (w : Word) (out : Out) :
    (s.retire w out).output = s.output := rfl
@[simp] theorem State.retire_traceOn (s : State) (w : Word) (out : Out) :
    (s.retire w out).traceOn = s.traceOn := rfl
@[simp] theorem State.retire_trace (s : State) (w : Word) (out : Out) :
    (s.retire w out).trace = if s.traceOn then s.trace ++ [traceRecord s w out] else s.trace := rfl

@[simp] theorem State.boot_regs (entry : Word) (image : Memory) (deny : List DenyRule) (input : List InputItem)
    (eofValue : Word) (traceOn : Bool) : (State.boot entry image deny input eofValue traceOn).regs = Vector.replicate 32 0#32 := rfl
@[simp] theorem State.boot_pc (entry : Word) (image : Memory) (deny : List DenyRule) (input : List InputItem)
    (eofValue : Word) (traceOn : Bool) : (State.boot entry image deny input eofValue traceOn).pc = entry := rfl
@[simp] theorem State.boot_run (entry : Word) (image : Memory) (deny : List DenyRule) (input : List InputItem)
    (eofValue : Word) (traceOn : Bool) : (State.boot entry image deny input eofValue traceOn).run = .running := rfl
@[simp] theorem State.boot_count (entry : Word) (image : Memory) (deny : List DenyRule) (input : List InputItem)
    (eofValue : Word) (traceOn : Bool) : (State.boot entry image deny input eofValue traceOn).count = 0 := rfl
@[simp] theorem State.boot_mem (entry : Word) (image : Memory) (deny : List DenyRule) (input : List InputItem)
    (eofValue : Word) (traceOn : Bool) : (State.boot entry image deny input eofValue traceOn).mem = image := rfl
@[simp] theorem State.boot_deny (entry : Word) (image : Memory) (deny : List DenyRule) (input : List InputItem)
    (eofValue : Word) (traceOn : Bool) : (State.boot entry image deny input eofValue traceOn).deny = deny := rfl
@[simp] theorem State.boot_input (entry : Word) (image : Memory) (deny : List DenyRule) (input : List InputItem)
    (eofValue : Word) (traceOn : Bool) : (State.boot entry image deny input eofValue traceOn).input = input := rfl
@[simp] theorem State.boot_inputPos (entry : Word) (image : Memory) (deny : List DenyRule) (input : List InputItem)
    (eofValue : Word) (traceOn : Bool) : (State.boot entry image deny input eofValue traceOn).inputPos = 0 := rfl
@[simp] theorem State.boot_eofValue (entry : Word) (image : Memory) (deny : List DenyRule) (input : List InputItem)
    (eofValue : Word) (traceOn : Bool) : (State.boot entry image deny input eofValue traceOn).eofValue = eofValue := rfl
@[simp] theorem State.boot_output (entry : Word) (image : Memory) (deny : List DenyRule) (input : List InputItem)
    (eofValue : Word) (traceOn : Bool) : (State.boot entry image deny input eofValue traceOn).output = [] := rfl
@[simp] theorem State.boot_traceOn (entry : Word) (image : Memory) (deny : List DenyRule) (input : List InputItem)
    (eofValue : Word) (traceOn : Bool) : (State.boot entry image deny input eofValue traceOn).traceOn = traceOn := rfl
@[simp] theorem State.boot_trace (entry : Word) (image : Memory) (deny : List DenyRule) (input : List InputItem)
    (eofValue : Word) (traceOn : Bool) : (State.boot entry image deny input eofValue traceOn).trace = [] := rfl

/-! ### Register reads -/

@[simp] theorem State.reg_zero (s : State) : s.reg 0 = 0#32 := rfl

theorem State.reg_of_ne (s : State) {r : Reg} (h : r ≠ 0) : s.reg r = s.regs[r] := by simp [State.reg, h]

@[simp] theorem State.withMem_reg (s : State) (m : Memory) (r : Reg) : (s.withMem m).reg r = s.reg r := rfl
@[simp] theorem State.consumeInput_reg (s : State) (r : Reg) : s.consumeInput.reg r = s.reg r := rfl
@[simp] theorem State.outputWrite_reg (s : State) (b : Byte) (r : Reg) : (s.outputWrite b).reg r = s.reg r := rfl
@[simp] theorem State.abort_reg (s : State) (reason : AbortReason) (r : Reg) :
    (s.abort reason).reg r = s.reg r := rfl

@[simp] theorem committed_none : committed none = none := rfl

@[simp] theorem committed_zero (v : Word) : committed (some (0, v)) = none := rfl

theorem committed_of_ne {r : Reg} (v : Word) (h : r ≠ 0) : committed (some (r, v)) = some (r, v) := by
  simp [committed, h]

@[simp] theorem writeback_none (regs : Vector Word 32) : writeback regs none = regs := rfl

/-- No write-back touches the cell of register 0 (R107). -/
@[simp] theorem writeback_zeroCell (regs : Vector Word 32) (wb : Option (Reg × Word)) :
    (writeback regs wb)[0] = regs[0] := by
  rcases wb with _ | ⟨r, v⟩
  · rfl
  · by_cases h : r = 0
    · subst h; rfl
    · have : r.val ≠ 0 := fun e => h (Fin.ext e)
      simp [writeback, committed, h, this]

/-- With no write-back requested, every register reads as before (R107). -/
theorem State.retire_reg_none (s : State) (w : Word) (out : Out) (none_ : out.wb = none) (r : Reg) :
    (s.retire w out).reg r = s.reg r := by
  simp [State.reg, none_]

/-- A requested write-back to `rd` is read there and nowhere else, and never at register 0 (R107, R22). -/
theorem State.retire_reg_some (s : State) (w : Word) (out : Out) (rd : Reg) (v : Word) (some_ : out.wb = some (rd, v))
    (r : Reg) : (s.retire w out).reg r = if r = rd ∧ r ≠ 0 then v else s.reg r := by
  by_cases hr : r = 0
  · subst hr; simp
  · rw [State.reg_of_ne _ hr, State.retire_regs, some_]
    by_cases hd : rd = 0
    · subst hd; simp [writeback, hr, State.reg_of_ne]
    · by_cases e : r = rd
      · subst e; simp [writeback, committed, hr]
      · have : rd.val ≠ r.val := fun h => e (Fin.ext h.symm)
        simp [writeback, committed, hd, e, State.reg_of_ne _ hr, this]

end Sys2Proof.Machine
end

