-- ==== Sys2Proof/Laws/Memory.lean ====
section
/-! SUPPORT. The laws of memory: the canonical form is kept, a write is read back, and a write leaves every other byte
alone; first for one byte, then for the little-endian accesses (R41, R42). -/

namespace Sys2Proof.Machine

/-! ### One byte, by key -/

theorem Memory.lookup_insert_of_ne (m : Memory) {a c : Nat} (b : Byte) (h : c ≠ a) :
    Memory.lookup (Memory.insert m a b) c = Memory.lookup m c := by
  induction m with
  | nil => by_cases hb : b = Config.unlistedByte <;> simp [Memory.insert, Memory.lookup, hb, h]
  | cons cell rest ih =>
    obtain ⟨k, v⟩ := cell
    by_cases hlt : a < k
    · by_cases hb : b = Config.unlistedByte <;> simp [Memory.insert, Memory.lookup, hlt, hb, h]
    · by_cases heq : a = k
      · subst heq
        by_cases hb : b = Config.unlistedByte <;> simp [Memory.insert, Memory.lookup, hb, h]
      · simp [Memory.insert, Memory.lookup, hlt, heq, ih]

/-- Below every listed address nothing is listed. -/
theorem Memory.lookup_of_lt (m : Memory) {lo a : Nat} (wf : Memory.wfFrom lo m = true) (h : a < lo) :
    Memory.lookup m a = Config.unlistedByte := by
  induction m generalizing lo with
  | nil => rfl
  | cons cell rest ih =>
    obtain ⟨k, v⟩ := cell
    simp only [Memory.wfFrom, Bool.and_eq_true, decide_eq_true_eq] at wf
    have : a ≠ k := by omega
    simp [Memory.lookup, this, ih wf.2 (by omega)]

theorem Memory.lookup_insert_self (m : Memory) {lo : Nat} (a : Nat) (b : Byte) (wf : Memory.wfFrom lo m = true) :
    Memory.lookup (Memory.insert m a b) a = b := by
  induction m generalizing lo with
  | nil => by_cases hb : b = Config.unlistedByte <;> simp [Memory.insert, Memory.lookup, hb]
  | cons cell rest ih =>
    obtain ⟨k, v⟩ := cell
    simp only [Memory.wfFrom, Bool.and_eq_true, decide_eq_true_eq] at wf
    by_cases hlt : a < k
    · by_cases hb : b = Config.unlistedByte
      · have below := Memory.lookup_of_lt rest wf.2 (by omega : a < k + 1)
        have : a ≠ k := by omega
        simp [Memory.insert, Memory.lookup, hlt, hb, this, below]
      · simp [Memory.insert, Memory.lookup, hlt, hb]
    · by_cases heq : a = k
      · subst heq
        by_cases hb : b = Config.unlistedByte
        · simp [Memory.insert, hb, Memory.lookup_of_lt rest wf.2 (by omega : a < a + 1)]
        · simp [Memory.insert, Memory.lookup, hb]
      · simp [Memory.insert, Memory.lookup, hlt, heq, ih wf.2]

theorem Memory.wfFrom_mono (m : Memory) {lo lo' : Nat} (h : lo' ≤ lo) (wf : Memory.wfFrom lo m = true) :
    Memory.wfFrom lo' m = true := by
  cases m with
  | nil => rfl
  | cons cell rest =>
    simp only [Memory.wfFrom, Bool.and_eq_true, decide_eq_true_eq] at wf ⊢
    exact ⟨⟨⟨by omega, wf.1.1.2⟩, wf.1.2⟩, wf.2⟩

theorem Memory.wfFrom_insert (m : Memory) {lo a : Nat} (b : Byte) (hlo : lo ≤ a) (ha : a < 2 ^ 32)
    (wf : Memory.wfFrom lo m = true) : Memory.wfFrom lo (Memory.insert m a b) = true := by
  have bound : a < 4294967296 := ha
  induction m generalizing lo with
  | nil => by_cases hb : b = Config.unlistedByte <;> simp [Memory.insert, Memory.wfFrom, hb, hlo, bound]
  | cons cell rest ih =>
    obtain ⟨k, v⟩ := cell
    have wf' := wf
    simp only [Memory.wfFrom, Bool.and_eq_true, decide_eq_true_eq] at wf'
    by_cases hlt : a < k
    · by_cases hb : b = Config.unlistedByte
      · simpa [Memory.insert, hlt, hb] using wf
      · have tail : Memory.wfFrom (a + 1) ((k, v) :: rest) = true := by
          simp only [Memory.wfFrom, Bool.and_eq_true, decide_eq_true_eq]
          exact ⟨⟨⟨by omega, wf'.1.1.2⟩, wf'.1.2⟩, wf'.2⟩
        simp only [Memory.insert, hlt, hb, if_true, if_false]
        rw [Memory.wfFrom]
        simp [hlo, bound, hb, tail]
    · by_cases heq : a = k
      · subst heq
        by_cases hb : b = Config.unlistedByte
        · simpa [Memory.insert, hb] using Memory.wfFrom_mono rest (by omega) wf'.2
        · simp [Memory.insert, Memory.wfFrom, hb, hlo, bound, wf'.2]
      · have tail := ih (by omega : k + 1 ≤ a) wf'.2
        simp only [Memory.insert, hlt, heq, if_false, Memory.wfFrom, Bool.and_eq_true, decide_eq_true_eq]
        exact ⟨wf'.1, tail⟩

/-! ### One byte, by address -/

theorem Memory.byteAt_setByte_of_ne (m : Memory) {a c : Word} (b : Byte) (h : c ≠ a) :
    Memory.byteAt (Memory.setByte m a b) c = Memory.byteAt m c :=
  Memory.lookup_insert_of_ne m b fun e => h (BitVec.eq_of_toNat_eq e)

theorem Memory.byteAt_setByte_self (m : Memory) (a : Word) (b : Byte) (wf : Memory.wf m = true) :
    Memory.byteAt (Memory.setByte m a b) a = b :=
  Memory.lookup_insert_self m a.toNat b wf

theorem Memory.wf_setByte (m : Memory) (a : Word) (b : Byte) (wf : Memory.wf m = true) :
    Memory.wf (Memory.setByte m a b) = true :=
  Memory.wfFrom_insert m b (Nat.zero_le _) a.isLt wf

/-! ### Little-endian accesses -/

@[simp] theorem Memory.readLE_zero (m : Memory) (a : Word) : Memory.readLE m a 0 = 0#32 := rfl

theorem Memory.readLE_succ (m : Memory) (a : Word) (n : Nat) :
    Memory.readLE m a (n + 1) = place 32 8 (Memory.readLE m (a + 1#32) n) ||| place 32 0 (Memory.byteAt m a) := rfl

@[simp] theorem Memory.writeLE_zero (m : Memory) (a : Word) (v : Word) : Memory.writeLE m a 0 v = m := rfl

theorem Memory.writeLE_succ (m : Memory) (a : Word) (n : Nat) (v : Word) :
    Memory.writeLE m a (n + 1) v = Memory.writeLE (Memory.setByte m a (v.setWidth 8)) (a + 1#32) n (v >>> 8) := rfl

theorem Memory.wf_writeLE (m : Memory) (a : Word) (n : Nat) (v : Word) (wf : Memory.wf m = true) :
    Memory.wf (Memory.writeLE m a n v) = true := by
  induction n generalizing m a v with
  | zero => exact wf
  | succ n ih => exact ih _ _ _ (Memory.wf_setByte m a _ wf)

theorem add_ofNat_succ (a : Word) (k : Nat) : a + BitVec.ofNat 32 (k + 1) = a + 1#32 + BitVec.ofNat 32 k := by
  rw [BitVec.ofNat_add, BitVec.add_comm (BitVec.ofNat 32 k), ← BitVec.add_assoc]

/-- A write leaves every byte outside its own bytes alone. -/
theorem Memory.byteAt_writeLE_outside (m : Memory) (a : Word) (n : Nat) (v : Word) (c : Word)
    (outside : ∀ k < n, c ≠ a + BitVec.ofNat 32 k) :
    Memory.byteAt (Memory.writeLE m a n v) c = Memory.byteAt m c := by
  induction n generalizing m a v with
  | zero => rfl
  | succ n ih =>
    have first : c ≠ a := by simpa using outside 0 (by omega)
    have later : ∀ k < n, c ≠ a + 1#32 + BitVec.ofNat 32 k := fun k hk => by
      rw [← add_ofNat_succ]; exact outside (k + 1) (by omega)
    rw [Memory.writeLE_succ, ih _ _ _ later, Memory.byteAt_setByte_of_ne m _ first]

/-- Byte `k` of a write of at most four bytes holds bits `8k+7:8k` of the value (R41). -/
theorem Memory.byteAt_writeLE_inside (m : Memory) (a : Word) (n : Nat) (v : Word) (k : Nat) (wf : Memory.wf m = true)
    (hk : k < n) (hn : n ≤ 4) :
    Memory.byteAt (Memory.writeLE m a n v) (a + BitVec.ofNat 32 k) = v.extractLsb' (8 * k) 8 := by
  induction n generalizing m a v k with
  | zero => omega
  | succ n ih =>
    rw [Memory.writeLE_succ]
    cases k with
    | zero =>
      have later : ∀ j < n, a + BitVec.ofNat 32 0 ≠ a + 1#32 + BitVec.ofNat 32 j := fun j hj e => by
        have := congrArg BitVec.toNat e
        simp at this
        omega
      rw [Memory.byteAt_writeLE_outside _ _ _ _ _ later]
      simp only [BitVec.add_zero, Memory.byteAt_setByte_self m a _ wf]
      ext i hi
      simp
    | succ k =>
      rw [add_ofNat_succ a k, ih _ _ _ k (Memory.wf_setByte m a _ wf) (by omega) (by omega)]
      ext i hi
      simp [Nat.mul_add, Nat.add_comm, Nat.add_left_comm]

/-- Bit `i` of a little-endian read lies in byte `i / 8` (R42). -/
theorem Memory.getLsbD_readLE (m : Memory) (a : Word) (n : Nat) (i : Nat) (hi : i < 32) :
    (Memory.readLE m a n).getLsbD i =
      (decide (i < 8 * n) && (Memory.byteAt m (a + BitVec.ofNat 32 (i / 8))).getLsbD (i % 8)) := by
  induction n generalizing a i with
  | zero => simp
  | succ n ih =>
    rw [Memory.readLE_succ]
    simp only [BitVec.getLsbD_or, Laws.getLsbD_place, hi, decide_true, Bool.true_and, Nat.not_lt_zero, decide_false,
      Bool.not_false, Nat.sub_zero]
    by_cases low : i < 8
    · have quotient : i / 8 = 0 := by omega
      have remainder : i % 8 = i := by omega
      have : i < 8 * (n + 1) := by omega
      simp [low, quotient, remainder, this]
    · obtain ⟨j, rfl⟩ : ∃ j, i = j + 8 := ⟨i - 8, by omega⟩
      have quotient : (j + 8) / 8 = j / 8 + 1 := by omega
      have remainder : (j + 8) % 8 = j % 8 := by omega
      have bound : j + 8 < 8 * (n + 1) ↔ j < 8 * n := by omega
      rw [Nat.add_sub_cancel, ih _ j (by omega), quotient, remainder, add_ofNat_succ a (j / 8)]
      simp [bound, BitVec.getLsbD_of_ge]

end Sys2Proof.Machine
end

