-- ==== Sys2Proof/Laws/Exec.lean ====
section
/-! SUPPORT. What each shared operation can do, said once, and from that what `exec` and `step` can do: an instruction
retires, aborts, or waits for input, and nothing else. Later proofs cite these and unfold nothing. -/

namespace Sys2Proof.Machine

/-! ### The memory collaborator's operations (R41) -/

theorem State.guardRead_ok {α : Type} (s : State) (a : Word) (width : Width) (value : α)
    (admitted : s.admits .read a width = true) : s.guardRead a width value = .ok value := by
  simp [State.guardRead, admitted]

theorem State.guardRead_error {α : Type} (s : State) (a : Word) (width : Width) (value : α)
    (refused : s.admits .read a width = false) : s.guardRead a width value = .error (.memoryRead a width) := by
  simp [State.guardRead, refused]

theorem State.guardWrite_ok (s : State) (a : Word) (width : Width) (v : Word)
    (admitted : s.admits .write a width = true) :
    s.guardWrite a width v = .ok (s.withMem (Memory.writeLE s.mem a width.bytes v)) := by
  simp [State.guardWrite, admitted]

theorem State.guardWrite_error (s : State) (a : Word) (width : Width) (v : Word)
    (refused : s.admits .write a width = false) : s.guardWrite a width v = .error (.memoryWrite a width) := by
  simp [State.guardWrite, refused]

/-! ### What an instruction can do -/

/-- The states an instruction may retire from: `s` itself, or `s` after its one store, read or output. -/
inductive Prepared (s : State) : State → Prop
  | same : Prepared s s
  | stored (a : Word) (width : Width) (v : Word) : Prepared s (s.withMem (Memory.writeLE s.mem a width.bytes v))
  | consumed (item : InputItem) (next : s.nextInput = some item) : Prepared s s.consumeInput
  | wrote (b : Byte) : Prepared s (s.outputWrite b)

/-- The three outcomes of an instruction. -/
inductive Outcomes (i : Instr) (s : State) : StepOutcome → Prop
  | retires (s' : State) (out : Out) (from_ : Prepared s s') : Outcomes i s (.next (s'.retire (encode i) out))
  | aborts (reason : AbortReason) : Outcomes i s (.next (s.abort reason))
  | waits (ecall : i = .ecall) (awaits : s.awaitsInput = true) : Outcomes i s (.next s)

theorem outcomes_complete (i : Instr) (s : State) (out : Out) : Outcomes i s (s.complete i out) :=
  .retires s out .same

theorem outcomes_completeWriting (i : Instr) (s : State) (rd : Reg) (v : Word) :
    Outcomes i s (s.completeWriting i rd v) :=
  outcomes_complete i s _

theorem outcomes_branch (i : Instr) (s : State) (offset : BitVec 13) (condition : Bool) :
    Outcomes i s (s.branch i offset condition) :=
  outcomes_complete i s _

theorem outcomes_load (i : Instr) (s : State) (rd : Reg) (access : Except AbortReason Word) :
    Outcomes i s (s.load i rd access) := by
  cases access with
  | ok v => exact outcomes_completeWriting i s rd v
  | error reason => exact .aborts reason

theorem outcomes_store (i : Instr) (s : State) (ea a : Word) (value : StoredValue) (width : Width) (v : Word) :
    Outcomes i s (s.store i ea value (s.guardWrite a width v)) := by
  by_cases h : s.admits .write a width = true
  · rw [State.guardWrite_ok s a width v h]
    exact .retires _ _ (.stored a width v)
  · rw [State.guardWrite_error s a width v (by simpa using h)]
    exact .aborts _

theorem outcomes_ecall (s : State) : Outcomes .ecall s (execEcall s) := by
  unfold execEcall
  split
  next selector =>
    unfold ecallRead
    cases h : s.nextInput with
    | none => exact .waits rfl (by simp [State.awaitsInput, selector, h])
    | some item => exact .retires _ _ (.consumed item h)
  next =>
    split
    next => exact .retires _ _ (.wrote _)
    next =>
      split
      next => exact outcomes_complete _ _ _
      next => exact outcomes_complete _ _ _

/-- `exec` inverted, whole: every instruction retires, aborts, or waits. -/
theorem exec_outcomes (i : Instr) (s : State) : Outcomes i s (exec i s) := by
  cases i with
  | add rd rs1 rs2 => exact outcomes_completeWriting _ _ _ _
  | sub rd rs1 rs2 => exact outcomes_completeWriting _ _ _ _
  | sll rd rs1 rs2 => exact outcomes_completeWriting _ _ _ _
  | slt rd rs1 rs2 => exact outcomes_completeWriting _ _ _ _
  | sltu rd rs1 rs2 => exact outcomes_completeWriting _ _ _ _
  | xor rd rs1 rs2 => exact outcomes_completeWriting _ _ _ _
  | srl rd rs1 rs2 => exact outcomes_completeWriting _ _ _ _
  | sra rd rs1 rs2 => exact outcomes_completeWriting _ _ _ _
  | or rd rs1 rs2 => exact outcomes_completeWriting _ _ _ _
  | and rd rs1 rs2 => exact outcomes_completeWriting _ _ _ _
  | mul rd rs1 rs2 => exact outcomes_completeWriting _ _ _ _
  | mulh rd rs1 rs2 => exact outcomes_completeWriting _ _ _ _
  | div rd rs1 rs2 => exact outcomes_completeWriting _ _ _ _
  | divu rd rs1 rs2 => exact outcomes_completeWriting _ _ _ _
  | rem rd rs1 rs2 => exact outcomes_completeWriting _ _ _ _
  | remu rd rs1 rs2 => exact outcomes_completeWriting _ _ _ _
  | addi rd rs1 imm => exact outcomes_completeWriting _ _ _ _
  | slti rd rs1 imm => exact outcomes_completeWriting _ _ _ _
  | sltiu rd rs1 imm => exact outcomes_completeWriting _ _ _ _
  | xori rd rs1 imm => exact outcomes_completeWriting _ _ _ _
  | ori rd rs1 imm => exact outcomes_completeWriting _ _ _ _
  | andi rd rs1 imm => exact outcomes_completeWriting _ _ _ _
  | slli rd rs1 imm => exact outcomes_completeWriting _ _ _ _
  | srli rd rs1 imm => exact outcomes_completeWriting _ _ _ _
  | srai rd rs1 imm => exact outcomes_completeWriting _ _ _ _
  | lb rd rs1 imm => exact outcomes_load _ _ _ _
  | lh rd rs1 imm => exact outcomes_load _ _ _ _
  | lw rd rs1 imm => exact outcomes_load _ _ _ _
  | lbu rd rs1 imm => exact outcomes_load _ _ _ _
  | lhu rd rs1 imm => exact outcomes_load _ _ _ _
  | sb rs1 rs2 imm => exact outcomes_store _ _ _ _ _ _ _
  | sh rs1 rs2 imm => exact outcomes_store _ _ _ _ _ _ _
  | sw rs1 rs2 imm => exact outcomes_store _ _ _ _ _ _ _
  | beq rs1 rs2 offset => exact outcomes_branch _ _ _ _
  | bne rs1 rs2 offset => exact outcomes_branch _ _ _ _
  | blt rs1 rs2 offset => exact outcomes_branch _ _ _ _
  | bge rs1 rs2 offset => exact outcomes_branch _ _ _ _
  | bltu rs1 rs2 offset => exact outcomes_branch _ _ _ _
  | bgeu rs1 rs2 offset => exact outcomes_branch _ _ _ _
  | lui rd imm20 => exact outcomes_completeWriting _ _ _ _
  | auipc rd imm20 => exact outcomes_completeWriting _ _ _ _
  | jal rd offset => exact outcomes_complete _ _ _
  | jalr rd rs1 imm => exact outcomes_complete _ _ _
  | ecall => exact outcomes_ecall s

/-! ### What a step can do -/

/-- Only ecall's own word decodes to ecall (R79). -/
theorem decode_ecall {w : Word} (h : decode w = .instr .ecall) : w = 0x00000073#32 := by
  by_contra other
  have system : decodeSystem w = .unknown := by simp [decodeSystem, other]
  unfold decode decodeOp decodeOpImm decodeLoad decodeStore decodeBranch decodeJalr at h
  rw [system] at h
  repeat' split at h
  all_goals cases h

theorem State.awaitsInput_iff (s : State) : s.awaitsInput = true ↔ s.reg 17 = 1#32 ∧ s.nextInput = none := by
  simp [State.awaitsInput]

/-- Everything the blocked condition says (R34, R118). -/
theorem State.blocked_iff (s : State) :
    s.blocked = true ↔ s.run = .running ∧ s.fetch = .ok 0x00000073#32 ∧ s.reg 17 = 1#32 ∧ s.nextInput = none := by
  have fetched : s.fetch.toOption = some 0x00000073#32 ↔ s.fetch = .ok 0x00000073#32 := by
    cases s.fetch <;> simp [Except.toOption]
  simp [State.blocked, State.awaitsInput_iff, fetched, and_assoc]

/-- The outcomes of one step (R101, R102): stuck in the two terminal states; an abort; the wait of a blocked read; or
the retirement of the word at the PC. -/
inductive StepOutcomes (s : State) : StepOutcome → Prop
  | halted (run : s.run = .halted) : StepOutcomes s (.fault .engineHalted)
  | aborted (run : s.run = .aborted) : StepOutcomes s (.fault .engineAborted)
  | aborts (run : s.run = .running) (reason : AbortReason) : StepOutcomes s (.next (s.abort reason))
  | waits (blocked : s.blocked = true) : StepOutcomes s (.next s)
  | retires (run : s.run = .running) (s' : State) (w : Word) (out : Out) (from_ : Prepared s s') :
      StepOutcomes s (.next (s'.retire w out))

/-- `step` inverted, whole. -/
theorem step_outcomes (s : State) : StepOutcomes s (step s) := by
  unfold step
  cases run : s.run with
  | halted => exact .halted run
  | aborted => exact .aborted run
  | running =>
    cases fetched : s.fetch with
    | error reason => exact .aborts run reason
    | ok w =>
      show StepOutcomes s (execDecoded w s (decode w))
      cases decoded : decode w with
      | unknown => exact .retires run s w _ .same
      | instr i =>
        show StepOutcomes s (exec i s)
        have outcomes := exec_outcomes i s
        generalize exec i s = answer at outcomes ⊢
        cases outcomes with
        | retires s' out from_ => exact .retires run s' (encode i) out from_
        | aborts reason => exact .aborts run reason
        | waits ecall awaits =>
          subst ecall
          exact .waits ((State.blocked_iff s).mpr ⟨run, decode_ecall decoded ▸ fetched, (State.awaitsInput_iff s).mp awaits⟩)

/-- What a store, read or output before retirement leaves alone. -/
theorem Prepared.unchanged {s s' : State} (h : Prepared s s') :
    s'.regs = s.regs ∧ s'.pc = s.pc ∧ s'.run = s.run ∧ s'.count = s.count ∧ s'.deny = s.deny ∧ s'.input = s.input ∧
      s'.eofValue = s.eofValue ∧ s'.traceOn = s.traceOn ∧ s'.trace = s.trace := by
  cases h <;> simp

/-- The memory it leaves is canonical if the memory before was. -/
theorem Prepared.wf_mem {s s' : State} (h : Prepared s s') (wf : Memory.wf s.mem = true) :
    Memory.wf s'.mem = true := by
  cases h with
  | stored a width v => exact Memory.wf_writeLE _ _ _ _ wf
  | _ => exact wf

/-- An answer consumed was one the host had given. -/
theorem Prepared.inputPos_le {s s' : State} (h : Prepared s s') (le : s.inputPos ≤ s.input.length) :
    s'.inputPos ≤ s'.input.length := by
  cases h with
  | consumed item next =>
    have : s.inputPos < s.input.length := by
      by_contra none_
      simp [State.nextInput, List.getElem?_eq_none (by omega : s.input.length ≤ s.inputPos)] at next
    simpa using this
  | _ => exact le

end Sys2Proof.Machine
end

