-- ==== Sys2Proof/Laws/PerInstr.lean ====
section
/-! SUPPORT. The family TableRow, one lemma per constructor: the row of spec/opcode_table.json that bears an
instruction's mnemonic holds of its encoding. The table (match and mask) was written by the spec's own hand, apart from
the field layouts that `encode` follows, so the two check each other. -/

namespace Sys2Proof.Laws

/-! ### Masking an encoded word leaves its fixed fields -/

theorem encodeR_masked (f7 : BitVec 7) (f3 : BitVec 3) (op : BitVec 7) (rd rs1 rs2 : Reg) :
    encodeR f7 f3 op rd rs1 rs2 &&& 0xFE00707F#32 = encodeR f7 f3 op 0 0 0 := by
  ext i hi; interval_cases i <;> simp [encodeR, regBits]

theorem encodeI_masked (f3 : BitVec 3) (op : BitVec 7) (rd rs1 : Reg) (imm : BitVec 12) :
    encodeI f3 op rd rs1 imm &&& 0x0000707F#32 = encodeI f3 op 0 0 0 := by
  ext i hi; interval_cases i <;> simp [encodeI, regBits]

theorem encodeI_masked_shift (f3 : BitVec 3) (op : BitVec 7) (rd rs1 : Reg) (imm : BitVec 12) :
    encodeI f3 op rd rs1 imm &&& 0x4000707F#32 = encodeI f3 op 0 0 (if arithmeticBit imm then 0x400 else 0) := by
  have bit : imm[10] = arithmeticBit imm := rfl
  cases h : arithmeticBit imm <;> rw [h] at bit <;> ext i hi <;> interval_cases i <;> simp [encodeI, regBits, bit]

theorem encodeS_masked (f3 : BitVec 3) (op : BitVec 7) (rs1 rs2 : Reg) (imm : BitVec 12) :
    encodeS f3 op rs1 rs2 imm &&& 0x0000707F#32 = encodeS f3 op 0 0 0 := by
  ext i hi; interval_cases i <;> simp [encodeS, regBits]

theorem encodeB_masked (f3 : BitVec 3) (op : BitVec 7) (rs1 rs2 : Reg) (offset : BitVec 13) :
    encodeB f3 op rs1 rs2 offset &&& 0x0000707F#32 = encodeB f3 op 0 0 0 := by
  ext i hi; interval_cases i <;> simp [encodeB, regBits]

theorem encodeU_masked (op : BitVec 7) (rd : Reg) (imm20 : BitVec 20) :
    encodeU op rd imm20 &&& 0x0000007F#32 = encodeU op 0 0 := by
  ext i hi; interval_cases i <;> simp [encodeU, regBits]

theorem encodeJ_masked (op : BitVec 7) (rd : Reg) (offset : BitVec 21) :
    encodeJ op rd offset &&& 0x0000007F#32 = encodeJ op 0 0 := by
  ext i hi; interval_cases i <;> simp [encodeJ, regBits]

/-- A row found at an index bears the mnemonic of `i` and, where `i` is well formed, holds of its word. -/
theorem tableRow_intro {i : Instr} (k : Nat) {row : OpcodeRow} (found : opcodeTable[k]? = some row)
    (name : row.mnemonic = i.mnemonic) (holds : i.wellFormed = true → encode i &&& row.mask = row.bits) :
    ∃ row ∈ opcodeTable, row.mnemonic = i.mnemonic ∧ (i.wellFormed = true → row.holds (encode i) = true) :=
  ⟨row, List.mem_of_getElem? found, name, fun wf => by simpa [OpcodeRow.holds] using holds wf⟩

namespace TableRow

/-- The opcode table has a row of this mnemonic, and it holds of the encoding of the instruction. -/
def Statement (i : Instr) : Prop :=
  ∃ row ∈ opcodeTable, row.mnemonic = i.mnemonic ∧ (i.wellFormed = true → row.holds (encode i) = true)

theorem add (rd rs1 rs2 : Reg) : Statement (.add rd rs1 rs2) :=
  tableRow_intro 0 rfl rfl fun _ => (encodeR_masked _ _ _ rd rs1 rs2).trans (by decide)

theorem sub (rd rs1 rs2 : Reg) : Statement (.sub rd rs1 rs2) :=
  tableRow_intro 1 rfl rfl fun _ => (encodeR_masked _ _ _ rd rs1 rs2).trans (by decide)

theorem sll (rd rs1 rs2 : Reg) : Statement (.sll rd rs1 rs2) :=
  tableRow_intro 2 rfl rfl fun _ => (encodeR_masked _ _ _ rd rs1 rs2).trans (by decide)

theorem slt (rd rs1 rs2 : Reg) : Statement (.slt rd rs1 rs2) :=
  tableRow_intro 3 rfl rfl fun _ => (encodeR_masked _ _ _ rd rs1 rs2).trans (by decide)

theorem sltu (rd rs1 rs2 : Reg) : Statement (.sltu rd rs1 rs2) :=
  tableRow_intro 4 rfl rfl fun _ => (encodeR_masked _ _ _ rd rs1 rs2).trans (by decide)

theorem xor (rd rs1 rs2 : Reg) : Statement (.xor rd rs1 rs2) :=
  tableRow_intro 5 rfl rfl fun _ => (encodeR_masked _ _ _ rd rs1 rs2).trans (by decide)

theorem srl (rd rs1 rs2 : Reg) : Statement (.srl rd rs1 rs2) :=
  tableRow_intro 6 rfl rfl fun _ => (encodeR_masked _ _ _ rd rs1 rs2).trans (by decide)

theorem sra (rd rs1 rs2 : Reg) : Statement (.sra rd rs1 rs2) :=
  tableRow_intro 7 rfl rfl fun _ => (encodeR_masked _ _ _ rd rs1 rs2).trans (by decide)

theorem or (rd rs1 rs2 : Reg) : Statement (.or rd rs1 rs2) :=
  tableRow_intro 8 rfl rfl fun _ => (encodeR_masked _ _ _ rd rs1 rs2).trans (by decide)

theorem and (rd rs1 rs2 : Reg) : Statement (.and rd rs1 rs2) :=
  tableRow_intro 9 rfl rfl fun _ => (encodeR_masked _ _ _ rd rs1 rs2).trans (by decide)

theorem mul (rd rs1 rs2 : Reg) : Statement (.mul rd rs1 rs2) :=
  tableRow_intro 10 rfl rfl fun _ => (encodeR_masked _ _ _ rd rs1 rs2).trans (by decide)

theorem mulh (rd rs1 rs2 : Reg) : Statement (.mulh rd rs1 rs2) :=
  tableRow_intro 11 rfl rfl fun _ => (encodeR_masked _ _ _ rd rs1 rs2).trans (by decide)

theorem div (rd rs1 rs2 : Reg) : Statement (.div rd rs1 rs2) :=
  tableRow_intro 12 rfl rfl fun _ => (encodeR_masked _ _ _ rd rs1 rs2).trans (by decide)

theorem divu (rd rs1 rs2 : Reg) : Statement (.divu rd rs1 rs2) :=
  tableRow_intro 13 rfl rfl fun _ => (encodeR_masked _ _ _ rd rs1 rs2).trans (by decide)

theorem rem (rd rs1 rs2 : Reg) : Statement (.rem rd rs1 rs2) :=
  tableRow_intro 14 rfl rfl fun _ => (encodeR_masked _ _ _ rd rs1 rs2).trans (by decide)

theorem remu (rd rs1 rs2 : Reg) : Statement (.remu rd rs1 rs2) :=
  tableRow_intro 15 rfl rfl fun _ => (encodeR_masked _ _ _ rd rs1 rs2).trans (by decide)

theorem addi (rd rs1 : Reg) (imm : BitVec 12) : Statement (.addi rd rs1 imm) :=
  tableRow_intro 16 rfl rfl fun _ => (encodeI_masked _ _ rd rs1 imm).trans (by decide)

theorem slti (rd rs1 : Reg) (imm : BitVec 12) : Statement (.slti rd rs1 imm) :=
  tableRow_intro 17 rfl rfl fun _ => (encodeI_masked _ _ rd rs1 imm).trans (by decide)

theorem sltiu (rd rs1 : Reg) (imm : BitVec 12) : Statement (.sltiu rd rs1 imm) :=
  tableRow_intro 18 rfl rfl fun _ => (encodeI_masked _ _ rd rs1 imm).trans (by decide)

theorem xori (rd rs1 : Reg) (imm : BitVec 12) : Statement (.xori rd rs1 imm) :=
  tableRow_intro 19 rfl rfl fun _ => (encodeI_masked _ _ rd rs1 imm).trans (by decide)

theorem ori (rd rs1 : Reg) (imm : BitVec 12) : Statement (.ori rd rs1 imm) :=
  tableRow_intro 20 rfl rfl fun _ => (encodeI_masked _ _ rd rs1 imm).trans (by decide)

theorem andi (rd rs1 : Reg) (imm : BitVec 12) : Statement (.andi rd rs1 imm) :=
  tableRow_intro 21 rfl rfl fun _ => (encodeI_masked _ _ rd rs1 imm).trans (by decide)

theorem slli (rd rs1 : Reg) (imm : BitVec 12) : Statement (.slli rd rs1 imm) :=
  tableRow_intro 22 rfl rfl fun _ => (encodeI_masked _ _ rd rs1 imm).trans (by decide)

theorem lb (rd rs1 : Reg) (imm : BitVec 12) : Statement (.lb rd rs1 imm) :=
  tableRow_intro 25 rfl rfl fun _ => (encodeI_masked _ _ rd rs1 imm).trans (by decide)

theorem lh (rd rs1 : Reg) (imm : BitVec 12) : Statement (.lh rd rs1 imm) :=
  tableRow_intro 26 rfl rfl fun _ => (encodeI_masked _ _ rd rs1 imm).trans (by decide)

theorem lw (rd rs1 : Reg) (imm : BitVec 12) : Statement (.lw rd rs1 imm) :=
  tableRow_intro 27 rfl rfl fun _ => (encodeI_masked _ _ rd rs1 imm).trans (by decide)

theorem lbu (rd rs1 : Reg) (imm : BitVec 12) : Statement (.lbu rd rs1 imm) :=
  tableRow_intro 28 rfl rfl fun _ => (encodeI_masked _ _ rd rs1 imm).trans (by decide)

theorem lhu (rd rs1 : Reg) (imm : BitVec 12) : Statement (.lhu rd rs1 imm) :=
  tableRow_intro 29 rfl rfl fun _ => (encodeI_masked _ _ rd rs1 imm).trans (by decide)

theorem jalr (rd rs1 : Reg) (imm : BitVec 12) : Statement (.jalr rd rs1 imm) :=
  tableRow_intro 42 rfl rfl fun _ => (encodeI_masked _ _ rd rs1 imm).trans (by decide)

theorem srli (rd rs1 : Reg) (imm : BitVec 12) : Statement (.srli rd rs1 imm) :=
  tableRow_intro 23 rfl rfl fun wf =>
    have bit : arithmeticBit imm = false := by simpa [Instr.wellFormed] using wf
    (encodeI_masked_shift _ _ rd rs1 imm).trans (by rw [bit]; decide)

theorem srai (rd rs1 : Reg) (imm : BitVec 12) : Statement (.srai rd rs1 imm) :=
  tableRow_intro 24 rfl rfl fun wf =>
    have bit : arithmeticBit imm = true := by simpa [Instr.wellFormed] using wf
    (encodeI_masked_shift _ _ rd rs1 imm).trans (by rw [bit]; decide)

theorem sb (rs1 rs2 : Reg) (imm : BitVec 12) : Statement (.sb rs1 rs2 imm) :=
  tableRow_intro 30 rfl rfl fun _ => (encodeS_masked _ _ rs1 rs2 imm).trans (by decide)

theorem sh (rs1 rs2 : Reg) (imm : BitVec 12) : Statement (.sh rs1 rs2 imm) :=
  tableRow_intro 31 rfl rfl fun _ => (encodeS_masked _ _ rs1 rs2 imm).trans (by decide)

theorem sw (rs1 rs2 : Reg) (imm : BitVec 12) : Statement (.sw rs1 rs2 imm) :=
  tableRow_intro 32 rfl rfl fun _ => (encodeS_masked _ _ rs1 rs2 imm).trans (by decide)

theorem beq (rs1 rs2 : Reg) (offset : BitVec 13) : Statement (.beq rs1 rs2 offset) :=
  tableRow_intro 33 rfl rfl fun _ => (encodeB_masked _ _ rs1 rs2 offset).trans (by decide)

theorem bne (rs1 rs2 : Reg) (offset : BitVec 13) : Statement (.bne rs1 rs2 offset) :=
  tableRow_intro 34 rfl rfl fun _ => (encodeB_masked _ _ rs1 rs2 offset).trans (by decide)

theorem blt (rs1 rs2 : Reg) (offset : BitVec 13) : Statement (.blt rs1 rs2 offset) :=
  tableRow_intro 35 rfl rfl fun _ => (encodeB_masked _ _ rs1 rs2 offset).trans (by decide)

theorem bge (rs1 rs2 : Reg) (offset : BitVec 13) : Statement (.bge rs1 rs2 offset) :=
  tableRow_intro 36 rfl rfl fun _ => (encodeB_masked _ _ rs1 rs2 offset).trans (by decide)

theorem bltu (rs1 rs2 : Reg) (offset : BitVec 13) : Statement (.bltu rs1 rs2 offset) :=
  tableRow_intro 37 rfl rfl fun _ => (encodeB_masked _ _ rs1 rs2 offset).trans (by decide)

theorem bgeu (rs1 rs2 : Reg) (offset : BitVec 13) : Statement (.bgeu rs1 rs2 offset) :=
  tableRow_intro 38 rfl rfl fun _ => (encodeB_masked _ _ rs1 rs2 offset).trans (by decide)

theorem lui (rd : Reg) (imm20 : BitVec 20) : Statement (.lui rd imm20) :=
  tableRow_intro 39 rfl rfl fun _ => (encodeU_masked _ rd imm20).trans (by decide)

theorem auipc (rd : Reg) (imm20 : BitVec 20) : Statement (.auipc rd imm20) :=
  tableRow_intro 40 rfl rfl fun _ => (encodeU_masked _ rd imm20).trans (by decide)

theorem jal (rd : Reg) (offset : BitVec 21) : Statement (.jal rd offset) :=
  tableRow_intro 41 rfl rfl fun _ => (encodeJ_masked _ rd offset).trans (by decide)

theorem ecall : Statement .ecall :=
  tableRow_intro 43 rfl rfl fun _ => by decide

end TableRow

end Sys2Proof.Laws
end

