-- ==== Sys2Proof/Tests/Slice0.lean ====
section
/-! SUPPORT. Tests. Expected values are those of spec/95_test_vectors.md (its ids stand in the docstrings) or of the
examples and tables of the rules named, never the model's own answers. Then one witness for the hypotheses of each
obligation that has any. -/

namespace Sys2Proof.Tests

open Sys2Proof.Machine

/-! ### Small states -/

/-- A register file with the registers listed. -/
def file (regs : List (Reg × Word)) : Vector Word 32 :=
  regs.foldl (fun v p => v.set p.1 p.2) (Vector.replicate 32 0#32)

/-- A memory with the bytes listed. -/
def bytes (cells : List (Word × Byte)) : Memory := cells.foldl (fun m p => Memory.setByte m p.1 p.2) []

/-- The start state of section 2 of 95_test_vectors.md: one word at the PC, everything admitted, `EOF_VALUE` all ones. -/
def vec (pc word : Word) (regs : List (Reg × Word)) : State :=
  { State.boot pc (Memory.writeLE [] pc 4 word) [] [] 0xFFFFFFFF#32 true with regs := file regs }

/-- The outcome is a next state with the property. -/
def after (o : StepOutcome) (p : State → Bool) : Bool :=
  match o with
  | .next t => p t
  | .fault _ => false
  | .refused _ => false

/-- One step of the word at 0x1000 leaves `v` in register `r`, the PC at `pc`, one retired instruction, Running. -/
def leaves (word : Word) (regs : List (Reg × Word)) (r : Reg) (v pc : Word) : Bool :=
  after (step (vec 0x1000#32 word regs)) fun t => t.reg r == v && t.pc == pc && t.count == 1 && t.run == .running

/-- The same where the instruction ends at pc + 4. -/
def gives (word : Word) (regs : List (Reg × Word)) (r : Reg) (v : Word) : Bool := leaves word regs r v 0x1004#32

/-- A start state with the data bytes of the load and store vectors (95, family 44). -/
def vecMem (word : Word) (regs : List (Reg × Word)) : State :=
  { vec 0x1000#32 word regs with
    mem := Memory.writeLE (bytes [(0x2000#32, 0x80#8), (0x2001#32, 0x7F#8), (0x2002#32, 0xFF#8), (0x2003#32, 0x01#8),
      (0x2004#32, 0x44#8), (0x2005#32, 0x33#8), (0x2006#32, 0x22#8), (0x2007#32, 0x11#8)]) 0x1000#32 4 word }

/-- A load from those bytes leaves `v` in x5. -/
def loads (word : Word) (x6 v : Word) : Bool :=
  after (step (vecMem word [(6, x6)])) fun t => t.reg 5 == v && t.pc == 0x1004#32 && t.count == 1

/-- A store over those bytes leaves the bytes listed, and x5 and x6 as they were. -/
def stores (word : Word) (x5 x6 : Word) (cells : List (Word × Byte)) : Bool :=
  after (step (vecMem word [(5, x5), (6, x6)])) fun t =>
    cells.all (fun p => Memory.byteAt t.mem p.1 == p.2) && t.reg 5 == x5 && t.reg 6 == x6 && t.pc == 0x1004#32

/-- A state about to ask for input or output, with the host's answers. -/
def vecIO (x17 x10 : Word) (input : List InputItem) (eofValue : Word) : State :=
  { vec 0x1000#32 0x00000073#32 [(17, x17), (10, x10)] with input := input, eofValue := eofValue }

/-- The same vector with the accesses listed refused. -/
def refusing (s : State) (deny : List DenyRule) : State := { s with deny := deny }

/-! ### Well-formedness: each check refuses a term -/

theorem test_wf_branch_offset_even :
    ([Instr.beq 1 2 1#13, .bne 1 2 1#13, .blt 1 2 3#13, .bge 1 2 3#13, .bltu 1 2 0x1FFF#13, .bgeu 1 2 0x1FFF#13].any
      Instr.wellFormed) = false ∧ (Instr.beq 1 2 8#13).wellFormed = true := by decide

theorem test_wf_jal_offset_even :
    (Instr.jal 1 1#21).wellFormed = false ∧ (Instr.jal 1 0x1FFFFE#21).wellFormed = true := by decide

theorem test_wf_right_shift_bit :
    (Instr.srli 1 2 0x404#12).wellFormed = false ∧ (Instr.srai 1 2 0x004#12).wellFormed = false ∧
      (Instr.srli 1 2 0x004#12).wellFormed = true ∧ (Instr.srai 1 2 0xC04#12).wellFormed = true := by decide

/-! ### Decoding: a word of every constructor (words of 95, families 41 to 48) -/

theorem test_decode_register :
    decode 0x003100B3#32 = .instr (.add 1 2 3) ∧ decode 0x403100B3#32 = .instr (.sub 1 2 3) ∧
    decode 0x003110B3#32 = .instr (.sll 1 2 3) ∧ decode 0x003120B3#32 = .instr (.slt 1 2 3) ∧
    decode 0x003130B3#32 = .instr (.sltu 1 2 3) ∧ decode 0x003140B3#32 = .instr (.xor 1 2 3) ∧
    decode 0x003150B3#32 = .instr (.srl 1 2 3) ∧ decode 0x403150B3#32 = .instr (.sra 1 2 3) ∧
    decode 0x003160B3#32 = .instr (.or 1 2 3) ∧ decode 0x003170B3#32 = .instr (.and 1 2 3) := by decide

theorem test_decode_multiply_divide :
    decode 0x023100B3#32 = .instr (.mul 1 2 3) ∧ decode 0x023110B3#32 = .instr (.mulh 1 2 3) ∧
    decode 0x023140B3#32 = .instr (.div 1 2 3) ∧ decode 0x023150B3#32 = .instr (.divu 1 2 3) ∧
    decode 0x023160B3#32 = .instr (.rem 1 2 3) ∧ decode 0x023170B3#32 = .instr (.remu 1 2 3) := by decide

theorem test_decode_immediate :
    decode 0xFFF00093#32 = .instr (.addi 1 0 0xFFF#12) ∧ decode 0x80012093#32 = .instr (.slti 1 2 0x800#12) ∧
    decode 0xFFF13093#32 = .instr (.sltiu 1 2 0xFFF#12) ∧ decode 0x7FF14093#32 = .instr (.xori 1 2 0x7FF#12) ∧
    decode 0x0F016093#32 = .instr (.ori 1 2 0x0F0#12) ∧ decode 0x0FF17093#32 = .instr (.andi 1 2 0x0FF#12) ∧
    decode 0x40411093#32 = .instr (.slli 1 2 0x404#12) ∧ decode 0x02415093#32 = .instr (.srli 1 2 0x024#12) ∧
    decode 0xC0415093#32 = .instr (.srai 1 2 0xC04#12) := by decide

theorem test_decode_load_store :
    decode 0x00130283#32 = .instr (.lb 5 6 1#12) ∧ decode 0x00231283#32 = .instr (.lh 5 6 2#12) ∧
    decode 0xFFC32283#32 = .instr (.lw 5 6 0xFFC#12) ∧ decode 0x00234283#32 = .instr (.lbu 5 6 2#12) ∧
    decode 0x00235283#32 = .instr (.lhu 5 6 2#12) ∧ decode 0x00530023#32 = .instr (.sb 6 5 0#12) ∧
    decode 0x00531123#32 = .instr (.sh 6 5 2#12) ∧ decode 0xFE532FA3#32 = .instr (.sw 6 5 0xFFF#12) := by decide

theorem test_decode_control :
    decode 0x00208463#32 = .instr (.beq 1 2 8#13) ∧ decode 0xFE209CE3#32 = .instr (.bne 1 2 0x1FF8#13) ∧
    decode 0x0020C863#32 = .instr (.blt 1 2 16#13) ∧ decode 0x0020D863#32 = .instr (.bge 1 2 16#13) ∧
    decode 0x8020E063#32 = .instr (.bltu 1 2 0x1000#13) ∧ decode 0x7E20FFE3#32 = .instr (.bgeu 1 2 0x0FFE#13) ∧
    decode 0x123452B7#32 = .instr (.lui 5 0x12345#20) ∧ decode 0xFFFFF297#32 = .instr (.auipc 5 0xFFFFF#20) ∧
    decode 0x7FE000EF#32 = .instr (.jal 1 0x7FE#21) ∧ decode 0x004280E7#32 = .instr (.jalr 1 5 4#12) ∧
    decode 0x00000073#32 = .instr .ecall := by decide

/-- V40.1 to V40.19, V45.20, V47.13. -/
theorem test_decode_unknown :
    ([0x00000000#32, 0xFFFFFFFF#32, 0x00100073#32, 0x0000000F#32, 0x0000100F#32, 0x30200073#32, 0x10500073#32,
      0xC0002073#32, 0x00000173#32, 0x023120B3#32, 0x023130B3#32, 0x043100B3#32, 0x403110B3#32, 0x00033283#32,
      0x00533023#32, 0x0000007B#32, 0x0000006B#32, 0x00000001#32, 0x0020A02F#32, 0x00002463#32, 0x004290E7#32].all
      fun w => decode w == .unknown) = true := by decide

/-- V30.6 and V30.14: fields and immediates of two words whose every immediate differs. -/
theorem test_fields :
    (opcode 0xFFDFF06F#32 = 0x6F#7 ∧ rdOf 0xFFDFF06F#32 = 0 ∧ funct3 0xFFDFF06F#32 = 7#3 ∧ rs1Of 0xFFDFF06F#32 = 31 ∧
      rs2Of 0xFFDFF06F#32 = 29 ∧ funct7 0xFFDFF06F#32 = 0x7F#7 ∧ immI 0xFFDFF06F#32 = 0xFFFFFFFD#32 ∧
      immS 0xFFDFF06F#32 = 0xFFFFFFE0#32 ∧ immB 0xFFDFF06F#32 = 0xFFFFF7E0#32 ∧ immU 0xFFDFF06F#32 = 0xFFDFF000#32 ∧
      immJ 0xFFDFF06F#32 = 0xFFFFFFFC#32) ∧
    (immI 0x7E20FFE3#32 = 0x7E2#32 ∧ immS 0x7E20FFE3#32 = 0x7FF#32 ∧ immB 0x7E20FFE3#32 = 0xFFE#32 ∧
      immU 0x7E20FFE3#32 = 0x7E20F000#32 ∧ immJ 0x7E20FFE3#32 = 0xF7E2#32) := by decide

/-- No two rows of the opcode table hold of one word: each pair differs in a bit both masks fix. -/
theorem test_table_rows_disjoint :
    opcodeTable.Pairwise fun a b => (a.bits ^^^ b.bits) &&& (a.mask &&& b.mask) ≠ 0#32 := by decide

/-- From bytes: the word of V20.7 with a byte after it, an Unknown word, and a short list. -/
theorem test_decode_bytes :
    decodeBytes [0x93#8, 0x00#8, 0xF0#8, 0xFF#8, 0x13#8] = .ok (.addi 1 0 0xFFF#12, [0x13#8]) ∧
    decodeBytes [0#8, 0#8, 0#8, 0#8] = .error (.unknownWord 0#32) ∧
    decodeBytes [0x93#8, 0x00#8] = .error (.tooFewBytes 2) := by decide

/-! ### One step, family by family -/

/-- V41.2, V41.27. -/
theorem test_add : gives 0x003100B3#32 [(2, 0x7FFFFFFF#32), (3, 1#32)] 1 0x80000000#32 = true ∧
    gives 0x00210133#32 [(2, 3#32)] 2 6#32 = true := by decide
/-- V41.4, V41.29. -/
theorem test_sub : gives 0x403100B3#32 [(2, 5#32), (3, 7#32)] 1 0xFFFFFFFE#32 = true ∧
    gives 0x403000B3#32 [(3, 1#32)] 1 0xFFFFFFFF#32 = true := by decide
/-- V41.8, V41.7. -/
theorem test_sll : gives 0x003110B3#32 [(2, 0x12345678#32), (3, 0x24#32)] 1 0x23456780#32 = true ∧
    gives 0x003110B3#32 [(2, 1#32), (3, 0x1F#32)] 1 0x80000000#32 = true := by decide
/-- V41.12, V41.11. -/
theorem test_slt : gives 0x003120B3#32 [(2, 0x80000000#32), (3, 0x7FFFFFFF#32)] 1 1#32 = true ∧
    gives 0x003120B3#32 [(2, 1#32), (3, 0xFFFFFFFF#32)] 1 0#32 = true := by decide
/-- V41.15, V41.14. -/
theorem test_sltu : gives 0x003130B3#32 [(2, 1#32), (3, 0xFFFFFFFF#32)] 1 1#32 = true ∧
    gives 0x003130B3#32 [(2, 0xFFFFFFFF#32), (3, 1#32)] 1 0#32 = true := by decide
/-- V41.17. -/
theorem test_xor : gives 0x003140B3#32 [(2, 0xFF00FF00#32), (3, 0x0FF00FF0#32)] 1 0xF0F0F0F0#32 = true := by decide
/-- V41.20, V41.19. -/
theorem test_srl : gives 0x003150B3#32 [(2, 0xF0000000#32), (3, 4#32)] 1 0x0F000000#32 = true ∧
    gives 0x003150B3#32 [(2, 0x80000000#32), (3, 0x20#32)] 1 0x80000000#32 = true := by decide
/-- V41.22, V41.24. -/
theorem test_sra : gives 0x403150B3#32 [(2, 0x80000000#32), (3, 4#32)] 1 0xF8000000#32 = true ∧
    gives 0x403150B3#32 [(2, 0x80000000#32), (3, 0x21#32)] 1 0xC0000000#32 = true := by decide
/-- V41.25. -/
theorem test_or : gives 0x003160B3#32 [(2, 0xF0F00000#32), (3, 0x00000F0F#32)] 1 0xF0F00F0F#32 = true := by decide
/-- V41.26. -/
theorem test_and : gives 0x003170B3#32 [(2, 0xFF00FF00#32), (3, 0x0FF00FF0#32)] 1 0x0F000F00#32 = true := by decide

/-- V42.2, V42.4. -/
theorem test_mul : gives 0x023100B3#32 [(2, 0xFFFFFFFD#32), (3, 5#32)] 1 0xFFFFFFF1#32 = true ∧
    gives 0x023100B3#32 [(2, 0x80000000#32), (3, 0xFFFFFFFF#32)] 1 0x80000000#32 = true := by decide
/-- V42.10, V42.6. -/
theorem test_mulh : gives 0x023110B3#32 [(2, 0x80000000#32), (3, 0x7FFFFFFF#32)] 1 0xC0000000#32 = true ∧
    gives 0x023110B3#32 [(2, 0xFFFFFFFF#32), (3, 0xFFFFFFFF#32)] 1 0#32 = true := by decide
/-- V42.23, V42.19. -/
theorem test_div : gives 0x023140B3#32 [(2, 0xFFFFFFF9#32), (3, 2#32)] 1 0xFFFFFFFD#32 = true ∧
    gives 0x023140B3#32 [(2, 0x80000000#32), (3, 0xFFFFFFFF#32)] 1 0x80000000#32 = true := by decide
/-- V42.24, V42.16. -/
theorem test_divu : gives 0x023150B3#32 [(2, 0xFFFFFFF9#32), (3, 2#32)] 1 0x7FFFFFFC#32 = true ∧
    gives 0x023150B3#32 [(2, 0xFFFFFFF9#32), (3, 0#32)] 1 0xFFFFFFFF#32 = true := by decide
/-- V42.29, V42.25. -/
theorem test_rem : gives 0x023160B3#32 [(2, 7#32), (3, 0xFFFFFFFE#32)] 1 1#32 = true ∧
    gives 0x023160B3#32 [(2, 0xFFFFFFF9#32), (3, 2#32)] 1 0xFFFFFFFF#32 = true := by decide
/-- V42.26, V42.18. -/
theorem test_remu : gives 0x023170B3#32 [(2, 0xFFFFFFF9#32), (3, 2#32)] 1 1#32 = true ∧
    gives 0x023170B3#32 [(2, 0xFFFFFFF9#32), (3, 0#32)] 1 0xFFFFFFF9#32 = true := by decide

/-- V43.3, V43.28. -/
theorem test_addi : gives 0x80010093#32 [] 1 0xFFFFF800#32 = true ∧
    gives 0x00110113#32 [(2, 0x29#32)] 2 0x2A#32 = true := by decide
/-- V43.5, V43.7. -/
theorem test_slti : gives 0x00012093#32 [(2, 0xFFFFFFFF#32)] 1 1#32 = true ∧
    gives 0x80012093#32 [(2, 0x80000000#32)] 1 1#32 = true := by decide
/-- V43.10, V43.11. -/
theorem test_sltiu : gives 0xFFF13093#32 [(2, 5#32)] 1 1#32 = true ∧
    gives 0xFFF13093#32 [(2, 0xFFFFFFFF#32)] 1 0#32 = true := by decide
/-- V43.12. -/
theorem test_xori : gives 0xFFF14093#32 [(2, 0x12345678#32)] 1 0xEDCBA987#32 = true := by decide
/-- V43.15. -/
theorem test_ori : gives 0x80016093#32 [] 1 0xFFFFF800#32 = true := by decide
/-- V43.17. -/
theorem test_andi : gives 0x80017093#32 [(2, 0x12345FFF#32)] 1 0x12345800#32 = true := by decide
/-- V43.26, V43.18. -/
theorem test_slli : gives 0x40411093#32 [(2, 1#32)] 1 0x10#32 = true ∧
    gives 0x01F11093#32 [(2, 3#32)] 1 0x80000000#32 = true := by decide
/-- V43.27, V43.21. -/
theorem test_srli : gives 0x02415093#32 [(2, 0xF0000000#32)] 1 0x0F000000#32 = true ∧
    gives 0x01F15093#32 [(2, 0x80000000#32)] 1 1#32 = true := by decide
/-- V43.25, V43.24. -/
theorem test_srai : gives 0xC0415093#32 [(2, 0xF0000000#32)] 1 0xFF000000#32 = true ∧
    gives 0x40415093#32 [(2, 0x70000000#32)] 1 0x07000000#32 = true := by decide

/-- V44.1, V44.2. -/
theorem test_lb : loads 0x00030283#32 0x2000#32 0xFFFFFF80#32 = true ∧
    loads 0x00130283#32 0x2000#32 0x7F#32 = true := by decide
/-- V44.13, V44.5. -/
theorem test_lh : loads 0x00331283#32 0x2000#32 0x4401#32 = true ∧
    loads 0x00031283#32 0x2000#32 0x7F80#32 = true := by decide
/-- V44.11, V44.12. -/
theorem test_lw : loads 0xFFC32283#32 0x2004#32 0x01FF7F80#32 = true ∧
    loads 0x00132283#32 0x2000#32 0x4401FF7F#32 = true := by decide
/-- V44.3, V44.4. -/
theorem test_lbu : loads 0x00034283#32 0x2000#32 0x80#32 = true ∧
    loads 0x00234283#32 0x2000#32 0xFF#32 = true := by decide
/-- V44.8. -/
theorem test_lhu : loads 0x00235283#32 0x2000#32 0x1FF#32 = true := by decide
/-- V44.16. -/
theorem test_sb : stores 0x00530023#32 0x123456AB#32 0x2000#32
    [(0x1FFF#32, 0#8), (0x2000#32, 0xAB#8), (0x2001#32, 0x7F#8)] = true := by decide
/-- V44.17. -/
theorem test_sh : stores 0x00531123#32 0x1234CDEF#32 0x2000#32
    [(0x2001#32, 0x7F#8), (0x2002#32, 0xEF#8), (0x2003#32, 0xCD#8), (0x2004#32, 0x44#8)] = true := by decide
/-- V44.19 (misaligned). -/
theorem test_sw : stores 0xFE532FA3#32 0xA1B2C3D4#32 0x2002#32
    [(0x2000#32, 0x80#8), (0x2001#32, 0xD4#8), (0x2002#32, 0xC3#8), (0x2003#32, 0xB2#8), (0x2004#32, 0xA1#8),
     (0x2005#32, 0x33#8)] = true := by decide

/-- V45.1, V45.2. -/
theorem test_beq : leaves 0x00208463#32 [(1, 5#32), (2, 5#32)] 1 5#32 0x1008#32 = true ∧
    leaves 0x00208463#32 [(1, 5#32), (2, 6#32)] 1 5#32 0x1004#32 = true := by decide
/-- V45.4, V45.5. -/
theorem test_bne : leaves 0xFE209CE3#32 [(1, 5#32), (2, 6#32)] 1 5#32 0xFF8#32 = true ∧
    leaves 0xFE209CE3#32 [(1, 5#32), (2, 5#32)] 1 5#32 0x1004#32 = true := by decide
/-- V45.6, V45.7. -/
theorem test_blt : leaves 0x0020C863#32 [(1, 0xFFFFFFFF#32), (2, 1#32)] 2 1#32 0x1010#32 = true ∧
    leaves 0x0020C863#32 [(1, 1#32), (2, 0xFFFFFFFF#32)] 1 1#32 0x1004#32 = true := by decide
/-- V45.10, V45.11. -/
theorem test_bge : leaves 0x0020D863#32 [(1, 3#32), (2, 3#32)] 2 3#32 0x1010#32 = true ∧
    leaves 0x0020D863#32 [(1, 0xFFFFFFFF#32), (2, 1#32)] 2 1#32 0x1004#32 = true := by decide
/-- V45.12, V45.13. -/
theorem test_bltu : leaves 0x8020E063#32 [(1, 1#32), (2, 0xFFFFFFFF#32)] 1 1#32 0#32 = true ∧
    leaves 0x8020E063#32 [(1, 0xFFFFFFFF#32), (2, 1#32)] 2 1#32 0x1004#32 = true := by decide
/-- V45.14, V45.15. -/
theorem test_bgeu : leaves 0x7E20FFE3#32 [(1, 0xFFFFFFFF#32), (2, 1#32)] 2 1#32 0x1FFE#32 = true ∧
    leaves 0x7E20FFE3#32 [(1, 1#32), (2, 0xFFFFFFFF#32)] 1 1#32 0x1004#32 = true := by decide
/-- V46.3, V46.2. -/
theorem test_lui : gives 0x800002B7#32 [(5, 0xFFF#32)] 5 0x80000000#32 = true ∧
    gives 0xFFFFF2B7#32 [] 5 0xFFFFF000#32 = true := by decide
/-- V46.4; V46.6 wraps. -/
theorem test_auipc : gives 0x00001297#32 [] 5 0x2000#32 = true ∧
    after (step (vec 0xFFFFF000#32 0x00001297#32 [])) (fun t => t.reg 5 == 0#32 && t.pc == 0xFFFFF004#32) = true := by
  decide
/-- V47.3; V47.4 has the most negative offset. -/
theorem test_jal : leaves 0x7FE000EF#32 [] 1 0x1004#32 0x17FE#32 = true ∧
    after (step (vec 0x100000#32 0x800000EF#32 [])) (fun t => t.reg 1 == 0x100004#32 && t.pc == 0#32) = true := by decide
/-- V47.7 (bit 0 cleared), V47.9 (rd = rs1). -/
theorem test_jalr : leaves 0x004280E7#32 [(5, 0x2001#32)] 1 0x1004#32 0x2004#32 = true ∧
    leaves 0x000080E7#32 [(1, 0x3000#32)] 1 0x1004#32 0x3000#32 = true := by decide

/-- V48.2, V48.3, V48.4: a byte of all ones, and the end of input for two values of `EOF_VALUE`. -/
theorem test_ecall_read :
    after (step (vecIO 1#32 0x12345678#32 [.byte 0xFF#8] 0xFFFFFFFF#32)) (fun t => t.reg 10 == 0xFF#32 && t.count == 1) =
      true ∧
    after (step (vecIO 1#32 0#32 [.eof] 0xFFFFFFFF#32)) (fun t => t.reg 10 == 0xFFFFFFFF#32 && t.inputPos == 1) = true ∧
    after (step (vecIO 1#32 7#32 [.eof] 0#32)) (fun t => t.reg 10 == 0#32 && t.pc == 0x1004#32) = true := by decide
/-- V48.5 to V48.11: write, the two halts, and selectors that do nothing. -/
theorem test_ecall_other :
    after (step (vecIO 2#32 0x12345648#32 [] 0#32)) (fun t => t.output == [72#8] && t.reg 10 == 0x12345648#32) = true ∧
    ([3#32, 93#32].all fun sel => after (step (vecIO sel 0#32 [] 0#32)) fun t =>
      t.run == .halted && t.count == 1 && t.pc == 0x1004#32 && runResult t == some 1) = true ∧
    ([0#32, 0x103#32, 0xFFFFFFFF#32, 92#32].all fun sel => after (step (vecIO sel 9#32 [.eof] 0#32)) fun t =>
      t.run == .running && t.count == 1 && t.reg 10 == 9#32 && t.inputPos == 0 && t.output == []) = true := by decide

/-- V40.B1, V40.B2: with no answer nothing changes; with one, the step completes. -/
theorem test_blocked_read :
    after (step (vecIO 1#32 0#32 [] 0#32)) (fun t => t == vecIO 1#32 0#32 [] 0#32) = true ∧
    after (step (vecIO 1#32 0#32 [.byte 0x0A#8] 0#32)) (fun t => t.reg 10 == 0x0A#32 && t.pc == 0x1004#32) = true := by
  decide

/-- V40.A1 to V40.A4: a refused load, store and fetch, and a misaligned fetch that is admitted. -/
theorem test_abort :
    after (step (refusing (vec 0x1000#32 0x00032283#32 [(6, 0x8000#32)]) [.range .read .word 0x8000#32 0x8000#32]))
      (fun t => t.run == .aborted && t.pc == 0x1000#32 && t.count == 0 && t.reg 5 == 0#32 && t.trace == []) = true ∧
    after (step (refusing (vec 0x1000#32 0x00530023#32 [(5, 0x11#32), (6, 0x8000#32)])
      [.range .write .byte 0x8000#32 0x8000#32]))
      (fun t => t.run == .aborted && Memory.byteAt t.mem 0x8000#32 == 0#8 && t.trace == []) = true ∧
    after (step (refusing (vec 0x9000#32 0xFFF00093#32 []) [.range .read .word 0x9000#32 0x9000#32]))
      (fun t => t.run == .aborted && t.reg 1 == 0#32 && t.count == 0) = true ∧
    after (step (vec 0x1002#32 0xFFF00093#32 [])) (fun t => t.reg 1 == 0xFFFFFFFF#32 && t.pc == 0x1006#32) = true := by
  decide

/-- V20.6: a half written at the top of the address space wraps. -/
theorem test_write_wraps :
    Memory.writeLE [] 0xFFFFFFFF#32 2 0xAABB#32 = [(0, 0xAA#8), (0xFFFFFFFF, 0xBB#8)] ∧
    Memory.readLE [(0, 0xAA#8), (0xFFFFFFFF, 0xBB#8)] 0xFFFFFFFF#32 2 = 0xAABB#32 := by decide

/-- V41.28, V44.14, V47.2: rd = 0 discards the write and nothing else. -/
theorem test_zero_register :
    gives 0x00310033#32 [(2, 5#32), (3, 7#32)] 0 0#32 = true ∧ loads 0x00032003#32 0x2000#32 0#32 = true ∧
    leaves 0xFFDFF06F#32 [] 0 0#32 0xFFC#32 = true := by decide

/-- V40.T1, V40.T2, V40.T3, V40.T5, V40.T10: trace records. -/
theorem test_trace_records :
    after (step (vec 0x1000#32 0xFFF00093#32 [])) (fun t => t.trace ==
      [⟨1, 0x1000#32, 0xFFF00093#32, "addi x1, x0, -1".toList, { writeback := some (1, 0xFFFFFFFF#32) }⟩]) = true ∧
    after (step (vec 0x1000#32 0x00532223#32 [(5, 0xDEADBEEF#32), (6, 0x2000#32)])) (fun t => t.trace ==
      [⟨1, 0x1000#32, 0x00532223#32, "sw x5, 4(x6)".toList, { store := some (0x2004#32, .word 0xDEADBEEF#32) }⟩]) =
      true ∧
    after (step (vec 0x1000#32 0x00208463#32 [(1, 5#32), (2, 5#32)])) (fun t => t.trace ==
      [⟨1, 0x1000#32, 0x00208463#32, "beq x1, x2, 8".toList, { taken := true }⟩]) = true ∧
    after (step (vecIO 1#32 0#32 [.byte 0x41#8] 0#32)) (fun t => t.trace ==
      [⟨1, 0x1000#32, 0x73#32, "ecall".toList,
        { syscall := some (.read (.byte 0x41#8)), writeback := some (10, 0x41#32) }⟩]) = true ∧
    after (step (vec 0x1000#32 0x023140B3#32 [(2, 20#32)])) (fun t => t.trace ==
      [⟨1, 0x1000#32, 0x023140B3#32, "unknown".toList, { writeback := some (1, 0xFFFFFFFF#32) }⟩]) = true := by decide

/-- V49.8, V49.9, V49.12, V49.16, V49.17, V49.19: text of one word of several families. -/
theorem test_disassembly :
    disassembleFull 0#32 0xC0415093#32 = "srai x1, x2, 4".toList ∧
    disassembleFull 0#32 0xFFC32283#32 = "lw x5, -4(x6)".toList ∧
    disassembleFull 0#32 0xFE209CE3#32 = "bne x1, x2, -8".toList ∧
    disassembleFull 0#32 0xFFFFF2B7#32 = "lui x5, 0xfffff".toList ∧
    disassembleFull 0#32 0xFFDFF06F#32 = "jal x0, -4".toList ∧
    disassembleFull 0#32 0x004280E7#32 = "jalr x1, 4(x5)".toList := by decide

/-- V49.24, V49.25, V49.27, V49.28. -/
theorem test_truncation :
    disassemble 0#32 0xFFF00093#32 4 = "addi".toList ∧ disassemble 0#32 0xFFF00093#32 0 = [] ∧
    disassemble 0#32 0xFFF00093#32 14 = "addi x1, x0, -".toList ∧ disassemble 0#32 0#32 3 = "unk".toList := by decide

/-- R114: eight digits, most significant first. -/
theorem test_hex_fixed :
    hexFixed 0xFFF00093#32 = "fff00093".toList ∧ hexFixed 0x1000#32 = "00001000".toList := by decide

/-- The table words, numbered as spec/opcode_table.json numbers them, decode and run as the next step after reset. -/
theorem test_table_word_runs :
    decodeTableWord 32 0x00000073 = some .ecall ∧ decodeTableWord 32 0x003100B3 = some (.add 1 2 3) ∧
    decodeTableWord 32 0 = none ∧
    after (step (State.reset.withFetchWord 32 0xFFF00093)) (fun t => t.reg 1 == 0xFFFFFFFF#32 && t.count == 1) = true := by
  decide

/-! ### Witnesses: a concrete state and operands that meet each obligation's hypotheses together -/

/-- The state of V44 with x2 = -7, x3 = 2, x5 = 0xDEADBEEF, x6 = 0x2000 and a word at 0x1000. -/
def some_ (word : Word) : State :=
  { vecMem word [] with regs := file [(2, 0xFFFFFFF9#32), (3, 2#32), (5, 0xDEADBEEF#32), (6, 0x2000#32)] }

/-- Every access but the fetch at 0x1000 is refused, of whatever size. -/
def closed (word : Word) : State :=
  refusing (some_ word) [.range .read .byte 0#32 0xFFFFFFFF#32, .range .read .half 0#32 0xFFFFFFFF#32,
    .range .read .word 0x1001#32 0xFFFFFFFF#32, .range .write .byte 0#32 0xFFFFFFFF#32,
    .range .write .half 0#32 0xFFFFFFFF#32, .range .write .word 0#32 0xFFFFFFFF#32]

/-- O2: the two forms with a well-formedness condition, at its boundary. -/
theorem witness_DecodeOfEncode : (Instr.jal 31 0x100000#21).wellFormed = true ∧
    (Instr.bgeu 31 31 0x1FFE#13).wellFormed = true ∧ (Instr.srai 0 31 0x400#12).wellFormed = true ∧
    (Instr.srli 0 31 0xBFF#12).wellFormed = true := by decide

/-- O3. -/
theorem witness_EncodeOfDecode : decode 0x7FE000EF#32 = .instr (.jal 1 0x7FE#21) := by decide

/-- O4: a row that holds of a word, and one that does not. -/
theorem witness_DecoderAgrees :
    (⟨"srai".toList, 0x40005013#32, 0x4000707F#32⟩ : OpcodeRow) ∈ opcodeTable ∧
    (⟨"srai".toList, 0x40005013#32, 0x4000707F#32⟩ : OpcodeRow).holds 0xC0415093#32 = true ∧
    (⟨"srai".toList, 0x40005013#32, 0x4000707F#32⟩ : OpcodeRow).holds 0x02415093#32 = false := by decide

/-- O6: a word for each clause. -/
theorem witness_NamedReserved :
    (0x00000001#32).extractLsb' 0 2 ≠ 0b11#2 ∧ opcode 0x0000007B#32 = 0x7B#7 ∧ opcode 0x0000000F#32 = 0x0F#7 ∧
    (opcode 0x023120B3#32 = 0x33#7 ∧ funct7 0x023120B3#32 = 0x01#7 ∧ funct3 0x023120B3#32 = 2#3) ∧
    (opcode 0x00002463#32 = 0x63#7 ∧ funct3 0x00002463#32 = 2#3) ∧
    (opcode 0x004290E7#32 = 0x67#7 ∧ funct3 0x004290E7#32 ≠ 0#3) ∧
    (opcode 0x004280E7#32 = 0x67#7 ∧ funct3 0x004280E7#32 = 0#3) ∧
    (opcode 0x00100073#32 = 0x73#7 ∧ (0x00100073#32 : Word) ≠ 0x00000073#32) ∧
    opcode 0x00000073#32 = 0x73#7 := by decide

/-- O11: an ordinary pair, and the overflowing pair, which the first clause leaves out. -/
theorem witness_QuotientAndRemainder :
    ((1 : Reg) ≠ 0 ∧ (some_ 0#32).reg 3 ≠ 0#32 ∧ ¬ ((some_ 0#32).reg 2 = 0x80000000#32 ∧
      (some_ 0#32).reg 3 = 0xFFFFFFFF#32) ∧ ((some_ 0#32).reg 2).toInt ≤ 0 ∧ 0 ≤ ((some_ 0#32).reg 3).toInt) ∧
    (vec 0#32 0#32 [(2, 0x80000000#32), (3, 0xFFFFFFFF#32)]).reg 3 ≠ 0#32 := by decide

/-- O14: an immediate of each right shift, every other upper bit set. -/
theorem witness_ImmediateShifts :
    (0xBFF#12).getLsbD 10 = false ∧ (0xFFF#12).getLsbD 10 = true ∧ (0x400#12).getLsbD 10 = true := by decide

/-- O15: each width admitted, at an address that wraps too, and each width refused. -/
theorem witness_Loads :
    (some_ 0#32).admits .read (effectiveAddress (some_ 0#32) 6 0#12) .byte = true ∧
    (some_ 0#32).admits .read (effectiveAddress (some_ 0#32) 0 0xFFF#12) .half = true ∧
    (some_ 0#32).admits .read (effectiveAddress (some_ 0#32) 0 0xFFE#12) .word = true ∧
    (closed 0#32).admits .read (effectiveAddress (closed 0#32) 6 0#12) .byte = false ∧
    (closed 0#32).admits .read (effectiveAddress (closed 0#32) 0 0xFFF#12) .half = false ∧
    (closed 0#32).admits .read (effectiveAddress (closed 0#32) 6 1#12) .word = false ∧
    (refusing (some_ 0#32) [.misaligned .read .word]).admits .read
      (effectiveAddress (some_ 0#32) 6 2#12) .word = false := by decide

/-- O16: each width admitted with a canonical memory, and refused. -/
theorem witness_Stores :
    Memory.wf (some_ 0#32).mem = true ∧
    (some_ 0#32).admits .write (effectiveAddress (some_ 0#32) 6 0#12) .byte = true ∧
    (some_ 0#32).admits .write (effectiveAddress (some_ 0#32) 0 0xFFF#12) .half = true ∧
    (some_ 0#32).admits .write (effectiveAddress (some_ 0#32) 0 0xFFE#12) .word = true ∧
    (closed 0#32).admits .write (effectiveAddress (closed 0#32) 6 0#12) .byte = false ∧
    (closed 0#32).admits .write (effectiveAddress (closed 0#32) 6 0#12) .half = false ∧
    (closed 0#32).admits .write (effectiveAddress (closed 0#32) 6 0#12) .word = false := by decide

/-- O17: one address reached through two base registers, at the top of the address space. -/
theorem witness_StoreThenLoad :
    (7 : Reg) ≠ 0 ∧ Memory.wf (some_ 0#32).mem = true ∧
    effectiveAddress (some_ 0#32) 2 0x005#12 = effectiveAddress (some_ 0#32) 0 0xFFE#12 ∧
    ([Width.word, .half, .byte].all fun w =>
      (some_ 0#32).admits .write (effectiveAddress (some_ 0#32) 0 0xFFE#12) w &&
        (some_ 0#32).admits .read (effectiveAddress (some_ 0#32) 0 0xFFE#12) w) = true := by decide

/-- O18: reads and writes admitted at 0xFFFFFFFE and at the PC, with a canonical memory. -/
theorem witness_LittleEndian :
    Memory.wf (some_ 0#32).mem = true ∧
    ([Width.half, .word].all fun w =>
      (some_ 0#32).admits .read 0xFFFFFFFE#32 w && (some_ 0#32).admits .write 0xFFFFFFFE#32 w) = true ∧
    (some_ 0#32).admits .read (some_ 0#32).pc .word = true := by decide

/-- O19: stores of each width over their own word (at 0x7FC, reached as x0 + 0x7FC), all
admitted, and an address whose fetch shares one byte with the store. -/
theorem witness_NextFetchSeesTheStore :
    ([0x7E500E23#32, 0x7E501E23#32, 0x7E502E23#32].all fun w =>
      (vec 0x7FC#32 w [(5, 0xDEADBEEF#32)]).run == .running && Memory.wf (vec 0x7FC#32 w [(5, 0xDEADBEEF#32)]).mem &&
      (vec 0x7FC#32 w [(5, 0xDEADBEEF#32)]).fetch.toOption == some w &&
      [Width.byte, .half, .word].all fun size =>
        (vec 0x7FC#32 w [(5, 0xDEADBEEF#32)]).admits .write 0x7FC#32 size &&
        (vec 0x7FC#32 w [(5, 0xDEADBEEF#32)]).admits .read 0x7F9#32 .word) = true ∧
    decode 0x7E500E23#32 = .instr (.sb 0 5 0x7FC#12) ∧ decode 0x7E501E23#32 = .instr (.sh 0 5 0x7FC#12) ∧
    decode 0x7E502E23#32 = .instr (.sw 0 5 0x7FC#12) ∧
    effectiveAddress (vec 0x7FC#32 0#32 []) 0 0x7FC#12 = 0x7FC#32 ∧
    (0x7F9#32 + BitVec.ofNat 32 3 : Word) = 0x7FC#32 + BitVec.ofNat 32 0 := by decide

/-- O20: a deny list that refuses one address and one width, as the second clause asks. -/
theorem witness_EveryMemoryCollaborator :
    (closed 0#32).admits .read 0x1000#32 .word = true ∧ (closed 0#32).admits .read 0x1001#32 .word = false := by decide

/-- O21: two canonical memories written in different orders. -/
theorem witness_CanonicalMemories :
    Memory.wf (bytes [(5#32, 1#8), (3#32, 2#8)]) = true ∧ Memory.wf (bytes [(3#32, 2#8), (9#32, 7#8), (5#32, 1#8),
      (9#32, 0#8)]) = true ∧ ∀ a, Memory.byteAt (bytes [(5#32, 1#8), (3#32, 2#8)]) a =
        Memory.byteAt (bytes [(3#32, 2#8), (9#32, 7#8), (5#32, 1#8), (9#32, 0#8)]) a :=
  ⟨by decide, by decide, fun a =>
    congrArg (Memory.byteAt · a) (by decide : bytes [(5#32, 1#8), (3#32, 2#8)] =
      bytes [(3#32, 2#8), (9#32, 7#8), (5#32, 1#8), (9#32, 0#8)])⟩

/-- O22: for each branch a pair that takes it and one that does not (x2 = -7, x3 = 2, x0 = 0), and an even offset. -/
theorem witness_Branches :
    (0x1000#13).getLsbD 0 = false ∧
    ((some_ 0#32).reg 2 = (some_ 0#32).reg 2 ∧ (some_ 0#32).reg 2 ≠ (some_ 0#32).reg 3) ∧
    (((some_ 0#32).reg 2).toInt < ((some_ 0#32).reg 3).toInt ∧ ((some_ 0#32).reg 3).toInt ≥ ((some_ 0#32).reg 2).toInt) ∧
    (((some_ 0#32).reg 3).toNat < ((some_ 0#32).reg 2).toNat ∧ ((some_ 0#32).reg 2).toNat ≥ ((some_ 0#32).reg 3).toNat) ∧
    ¬ ((some_ 0#32).reg 3).toInt < ((some_ 0#32).reg 3).toInt := by decide

/-- O25: the most negative even offset. -/
theorem witness_Jumps : (0x100000#21).getLsbD 0 = false := by decide

/-- O26: an answer that is a byte, and one that is the end of input. -/
theorem witness_EcallRead :
    ((vecIO 1#32 0#32 [.byte 0xFF#8] 5#32).reg 17 = 1#32 ∧
      (vecIO 1#32 0#32 [.byte 0xFF#8] 5#32).input[(vecIO 1#32 0#32 [.byte 0xFF#8] 5#32).inputPos]? =
        some (.byte 0xFF#8)) ∧
    ((vecIO 1#32 0#32 [.eof] 5#32).reg 17 = 1#32 ∧
      (vecIO 1#32 0#32 [.eof] 5#32).input[(vecIO 1#32 0#32 [.eof] 5#32).inputPos]? = some .eof) := by decide

/-- O27. -/
theorem witness_EcallReadWaits :
    (vecIO 1#32 0#32 [] 0#32).run = .running ∧ (vecIO 1#32 0#32 [] 0#32).fetch.toOption = some 0x00000073#32 ∧
    (vecIO 1#32 0#32 [] 0#32).reg 17 = 1#32 ∧
    (vecIO 1#32 0#32 [] 0#32).inputPos = (vecIO 1#32 0#32 [] 0#32).input.length := by decide

/-- O28, O29, O30: each selector, a running state that halts, and selectors beside the named ones. -/
theorem witness_EcallSelectors :
    (vecIO 3#32 0#32 [] 0#32).run ≠ .halted ∧
    after (exec .ecall (vecIO 3#32 0#32 [] 0#32)) (fun t => t.run == .halted) = true ∧
    (vecIO 2#32 0#32 [] 0#32).reg 17 = 2#32 ∧ (vecIO 3#32 0#32 [] 0#32).reg 17 = 3#32 ∧
    (vecIO 93#32 0#32 [] 0#32).reg 17 = 93#32 ∧
    ([0#32, 4#32, 92#32, 94#32, 0x103#32, 0xFFFFFFFF#32].all fun sel =>
      !([1, 2, 3, 93].contains ((vecIO sel 0#32 [] 0#32).reg 17).toNat)) = true := by decide

/-- O31, O32: a running state whose fetched word is an instruction, and one whose word is Unknown. -/
theorem witness_Step :
    (some_ 0x003100B3#32).run = .running ∧ (some_ 0x003100B3#32).fetch.toOption = some 0x003100B3#32 ∧
    decode 0x003100B3#32 = .instr (.add 1 2 3) ∧ (some_ 0#32).run = .running ∧
    (some_ 0#32).fetch.toOption = some 0#32 ∧ decode 0#32 = .unknown := by decide

/-- O33, O34: a refused fetch; a running state whose fetched load is refused, and one whose fetched store is; the step
that aborts; and an aborted state. -/
theorem witness_Abort :
    (refusing (some_ 0#32) [.misaligned .read .word, .range .read .word 0x1000#32 0x1000#32]).admits .read
      (some_ 0#32).pc .word = false ∧
    ((closed 0x00032283#32).run = .running ∧ (closed 0x00032283#32).fetch.toOption = some 0x00032283#32 ∧
      decode 0x00032283#32 = .instr (.lw 5 6 0#12) ∧ Claims.RefusedAccess (closed 0x00032283#32) (.lw 5 6 0#12)) ∧
    Claims.RefusedAccess (closed 0#32) (.sb 6 5 0#12) ∧
    after (step (closed 0x00032283#32)) (fun t => t.run == .aborted) = true ∧
    (Claims.aborted (some_ 0#32)).run = .aborted :=
  ⟨by decide, ⟨by decide, by decide, by decide, .read, 0x2000#32, .word, by decide, by decide⟩,
    ⟨.write, 0x2000#32, .byte, by decide, by decide⟩, by decide, by decide⟩

/-- O35, O36, O54: a step that retires, one that halts, one that aborts; the first two are no wait. -/
theorem witness_RunState :
    vec 0x1000#32 0#32 [] = State.boot 0x1000#32 [] [] [] 0xFFFFFFFF#32 true ∧
    after (step (some_ 0x003100B3#32)) (fun t => t.run == .running && t.count == 1) = true ∧
    after (step (vecIO 93#32 0#32 [] 0#32)) (fun t => t.run == .halted) = true ∧
    after (step (closed 0x00032283#32)) (fun t => t.run == .aborted) = true ∧
    (some_ 0x003100B3#32).blocked = false ∧ (vecIO 93#32 0#32 [] 0#32).blocked = false ∧
    (vecIO 1#32 0#32 [] 0#32).blocked = true ∧
    after (step (vecIO 1#32 0#32 [] 0#32)) (fun _ => true) = true := by decide

/-- O37: a taken branch, an aborting load, and a wait. -/
theorem witness_OnlyBranchesAndJumps :
    after (step (some_ 0x00210463#32)) (fun t => t.count == 1 && t.pc != 0x1004#32) = true ∧
    after (step (closed 0x00032283#32)) (fun t => t.count == 0) = true ∧
    after (step (vecIO 1#32 0#32 [] 0#32)) (fun t => t.count == 0) = true := by decide

/-- O38: a register that is not the destination, and ecall with a register other than x10. -/
theorem witness_OnlyTheNamedRegister :
    after (exec (.add 1 2 3) (some_ 0#32)) (fun _ => true) = true ∧ (Instr.add 1 2 3).dest? ≠ some 2 ∧
    after (exec .ecall (vecIO 1#32 0#32 [.eof] 0#32)) (fun _ => true) = true ∧ Instr.ecall.dest? ≠ some 17 ∧
    ¬ (Instr.ecall = .ecall ∧ (vecIO 1#32 0#32 [.eof] 0#32).reg 17 = 1#32 ∧ (17 : Reg) = 10) := by decide

/-- O39: a load to register 0, everything admitted; and a selector-1 ecall with an answer. -/
theorem witness_WritesToRegisterZero :
    (vecIO 1#32 0#32 [.eof] 0#32).reg 17 = 1#32 ∧ (vecIO 1#32 0#32 [.eof] 0#32).nextInput = some .eof ∧
    (Instr.lw 0 6 0#12).dest? = some 0 ∧ (some_ 0#32).deny = [] ∧
    after (exec (.lw 0 6 0#12) (some_ 0#32)) (fun t => t.count == 1) = true := by decide

/-- O40: the destination is no source; x10 is a source of ecall for selector 2 only. -/
theorem witness_ReadOnlySources :
    (1 : Reg) ∉ Claims.sources (some_ 0#32) (.add 1 2 3) ∧ (10 : Reg) ∉ Claims.sources (some_ 0#32) .ecall ∧
    (10 : Reg) ∈ Claims.sources (vecIO 2#32 0#32 [] 0#32) .ecall := by decide

/-- O41, O42: an instruction that is no store, and ecalls that move each stream. -/
theorem witness_MemoryAndStreams :
    after (exec (.lw 5 6 0#12) (some_ 0#32)) (fun _ => true) = true ∧
    (∀ rs1 rs2 imm, Instr.lw 5 6 0#12 ∉ [Instr.sb rs1 rs2 imm, .sh rs1 rs2 imm, .sw rs1 rs2 imm]) ∧
    after (exec .ecall (vecIO 1#32 0#32 [.eof] 0#32)) (fun t => t.inputPos != 0) = true ∧
    after (exec .ecall (vecIO 2#32 0#32 [] 0#32)) (fun t => t.output != []) = true :=
  ⟨by decide, by simp, by decide, by decide⟩

/-- O44, O45: a start with a canonical image. -/
theorem witness_Boot :
    Memory.wf (bytes [(0x1000#32, 0x93#8), (0xFFFFFFFF#32, 1#8)]) = true ∧
    vec 0x1000#32 0#32 [] = State.boot 0x1000#32 [] [] [] 0xFFFFFFFF#32 true := by decide

theorem reset_inv : State.reset.Inv := ⟨rfl, rfl, Nat.le_refl _, fun _ => rfl, fun _ => rfl⟩

/-- O43, O46, O47: a state with the invariant, and its step, which retires. -/
theorem witness_Invariant :
    (some_ 0x003100B3#32).Inv ∧ after (step (some_ 0x003100B3#32)) (fun t => t.count == 1) = true :=
  ⟨⟨by decide, by decide, by decide, fun _ => by decide, fun off => absurd off (by decide)⟩, by decide⟩

/-- O47: a retirement for each kind of annotation (sw, a taken beq, a bne not taken, ecall, an Unknown word), and a step
that does not retire. -/
theorem witness_Annotations :
    ([0x00532223#32, 0x00210463#32, 0x00211463#32, 0x00000073#32, 0x00000000#32].all fun w =>
      after (step (some_ w)) fun t => t.count == 1) = true ∧
    after (step (closed 0x00032283#32)) (fun t => t.count == 0) = true := by decide

/-- O48: a step that answers a state, and one that faults. -/
theorem witness_TraceHasNoEffect :
    after (step (some_ 0x003100B3#32)) (fun _ => true) = true ∧
    step (Claims.aborted (some_ 0#32)) = .fault .engineAborted :=
  ⟨by decide, rfl⟩

/-- O49: the families with a well-formedness condition, at its boundary. -/
theorem witness_Disassembly :
    (Instr.srli 1 2 0xBFF#12).wellFormed = true ∧ (Instr.srai 1 2 0x400#12).wellFormed = true ∧
    (Instr.bltu 1 2 0x1000#13).wellFormed = true ∧ (Instr.jal 1 0x100000#21).wellFormed = true := by decide

/-- O50: two words with one decoding, an M word, and a word of neither kind. -/
theorem witness_Unknown :
    decode 0#32 = decode 0xFFFFFFFF#32 ∧ decode 0x023140B3#32 = .instr (.div 1 2 3) ∧
    decode 0x003100B3#32 ≠ .unknown := by decide

/-- O51: zero, whose text alone begins with 0. -/
theorem witness_DecimalText : (decimal 0).head? = some '0' ∧ (decimal 10).head? = some '1' := by decide

/-- O52: `maxlen` equal to the length, and one below it (V49.26, V49.27). -/
theorem witness_Truncation :
    (disassembleFull 0#32 0xFFF00093#32).length ≤ 15 ∧ ¬ (disassembleFull 0#32 0xFFF00093#32).length ≤ 14 := by decide

/-- O53: a canonical memory, an address outside the word, and the PC where the word wraps. -/
theorem witness_PlacedWord :
    Memory.wf (some_ 0#32).mem = true ∧
    (∀ k < 4, (0x1004#32 : Word) ≠ (some_ 0#32).pc + BitVec.ofNat 32 k) ∧
    after (step ((vec 0xFFFFFFFE#32 0#32 []).withFetchWord 32 0xFFF00093)) (fun t => t.reg 1 == 0xFFFFFFFF#32) = true := by
  decide

/-- O55: a blocked state, and four that each lack one condition of it: halted, another word at the PC, another selector,
an answer left. -/
theorem witness_Blocked :
    (vecIO 1#32 0#32 [] 0#32).blocked = true ∧
    ([{ vecIO 1#32 0#32 [] 0#32 with run := .halted }, vec 0x1000#32 0xFFF00093#32 [(17, 1#32)],
      vecIO 2#32 0#32 [] 0#32, vecIO 1#32 0#32 [.eof] 0#32].all fun s => s.blocked == false) = true := by decide

end Sys2Proof.Tests
end

/-! The memory family: what a fetch reads byte by byte, what an admitted store leaves, and from these the statement
that the next fetch sees the store (R54). -/

namespace Sys2Proof.Machine

/-! ### Bytes of a word -/

/-- Byte `j` of a little-endian read of at most four bytes is the byte at the `j`-th address (R42). -/
theorem Memory.extractLsb'_readLE (m : Memory) (a : Word) (n j : Nat) (hj : j < n) (hn : n ≤ 4) :
    (Memory.readLE m a n).extractLsb' (8 * j) 8 = Memory.byteAt m (a + BitVec.ofNat 32 j) := by
  ext i hi
  have quotient : (8 * j + i) / 8 = j := by omega
  have remainder : (8 * j + i) % 8 = i := by omega
  have inside : 8 * j + i < 8 * n := by omega
  rw [BitVec.getElem_extractLsb', Memory.getLsbD_readLE m a n _ (by omega), quotient, remainder]
  simp [inside, hi]

/-- Cutting a word to its low `n` bits leaves every byte below bit `n` as it is (R196, R197). -/
theorem extractLsb'_byte_of_low (v : Word) (n k : Nat) (hk : 8 * k + 8 ≤ n) (hn : n ≤ 32) :
    ((v.extractLsb' 0 n).setWidth 32).extractLsb' (8 * k) 8 = v.extractLsb' (8 * k) 8 := by
  ext i hi
  have kept : 8 * k + i < n := by omega
  have inWord : 8 * k + i < 32 := by omega
  simp [kept, inWord]

/-! ### Steps, fetches and stores -/

/-- In Running, a fetched word that decodes to an instruction is executed as it (R102, R106). -/
theorem step_of_decode {s : State} {w : Word} {i : Instr} (run : s.run = .running) (fetched : s.fetch = .ok w)
    (decoded : decode w = .instr i) : step s = exec i s := by
  simp only [step, run, fetched, decoded, execDecoded]

/-- Admission depends on the deny list alone, among the fields of the state (R41). -/
theorem State.admits_congr {s t : State} (deny : t.deny = s.deny) (kind : AccessKind) (a : Word) (width : Width) :
    t.admits kind a width = s.admits kind a width := by
  simp only [State.admits, deny]

/-- A fetch at `p`, from a state that admits what `s` admits, reads the word there (R103). -/
theorem State.fetch_at_of_admits {s t : State} (deny : t.deny = s.deny) {p : Word}
    (readable : s.admits .read p .word = true) : State.fetch { t with pc := p } = .ok (Memory.readLE t.mem p 4) :=
  State.guardRead_ok _ p .word _ ((State.admits_congr (t := { t with pc := p }) deny .read p .word).trans readable)

/-- The state an admitted store retires to: its bytes written, the PC advanced (R196 to R198, R102). -/
def State.afterStore (s : State) (i : Instr) (ea : Word) (value : StoredValue) (width : Width) (v : Word) : State :=
  (s.withMem (Memory.writeLE s.mem ea width.bytes v)).retire (encode i)
    { next := s.pc + 4#32, note := { store := some (ea, value) } }

theorem State.store_of_admits (s : State) (i : Instr) (ea : Word) (value : StoredValue) (width : Width) (v : Word)
    (admitted : s.admits .write ea width = true) :
    s.store i ea value (s.guardWrite ea width v) = .next (s.afterStore i ea value width v) := by
  rw [State.guardWrite_ok s ea width v admitted]
  rfl

@[simp] theorem State.afterStore_mem (s : State) (i : Instr) (ea : Word) (value : StoredValue) (width : Width)
    (v : Word) : (s.afterStore i ea value width v).mem = Memory.writeLE s.mem ea width.bytes v := rfl

@[simp] theorem State.afterStore_deny (s : State) (i : Instr) (ea : Word) (value : StoredValue) (width : Width)
    (v : Word) : (s.afterStore i ea value width v).deny = s.deny := rfl

theorem State.afterStore_advances (s : State) (i : Instr) (ea : Word) (value : StoredValue) (width : Width)
    (v : Word) : Claims.Advances s (s.afterStore i ea value width v) (s.pc + 4#32) :=
  ⟨rfl, rfl, rfl, rfl, rfl, rfl⟩

theorem State.afterStore_registersKept (s : State) (i : Instr) (ea : Word) (value : StoredValue) (width : Width)
    (v : Word) : Claims.RegistersKept s (s.afterStore i ea value width v) :=
  fun r => (State.retire_reg_none _ _ _ rfl r).trans (State.withMem_reg s _ r)

theorem Width.bytes_le_four (width : Width) : width.bytes ≤ 4 := by
  cases width <;> decide

/-! ### The next fetch sees the store (R54) -/

/-- A fetch at `p` from memory with `n` bytes of `v` written from `ea` up has, in each byte it shares with the write,
the byte written. -/
theorem Memory.readLE_writeLE_shared (m : Memory) (ea p : Word) (n : Nat) (v : Word) (wf : Memory.wf m = true)
    (hn : n ≤ 4) {j k : Nat} (hj : j < 4) (hk : k < n) (shared : p + BitVec.ofNat 32 j = ea + BitVec.ofNat 32 k) :
    (Memory.readLE (Memory.writeLE m ea n v) p 4).extractLsb' (8 * j) 8 = v.extractLsb' (8 * k) 8 := by
  rw [Memory.extractLsb'_readLE _ p 4 j hj (Nat.le_refl 4), shared, Memory.byteAt_writeLE_inside m ea n v k wf hk hn]

/-- What the three store rows have in common: an instruction that stores, as `width.bytes` bytes, a word with the low
bytes of `rs2`, is seen by the next fetch. -/
theorem seenByTheNextFetch_of_store {i : Reg → Reg → BitVec 12 → Instr} (width : Width) (cut : Word → Word)
    (value : Word → StoredValue)
    (stores : ∀ s rs1 rs2 imm, exec (i rs1 rs2 imm) s = s.store (i rs1 rs2 imm) (effectiveAddress s rs1 imm)
      (value (s.reg rs2)) (s.guardWrite (effectiveAddress s rs1 imm) width (cut (s.reg rs2))))
    (cut_bytes : ∀ v, ∀ k < width.bytes, (cut v).extractLsb' (8 * k) 8 = v.extractLsb' (8 * k) 8) :
    Claims.SeenByTheNextFetch i width width.bytes := by
  intro s w rs1 rs2 imm run wf fetched decoded admitted
  refine ⟨s.afterStore (i rs1 rs2 imm) (effectiveAddress s rs1 imm) (value (s.reg rs2)) width (cut (s.reg rs2)),
    ?_, s.afterStore_advances _ _ _ _ _, s.afterStore_registersKept _ _ _ _ _, fun p readable => ?_⟩
  · rw [step_of_decode run fetched decoded, stores, State.store_of_admits s _ _ _ _ _ admitted]
  · refine ⟨_, State.fetch_at_of_admits (State.afterStore_deny ..) readable, fun j hj k hk shared => ?_⟩
    rw [State.afterStore_mem, ← cut_bytes _ k hk]
    exact Memory.readLE_writeLE_shared s.mem _ p _ _ wf width.bytes_le_four hj hk shared

/-- Settles O19: each store row is a store of the low bytes of `rs2`, and a fetch reads back, byte by byte, what the
store wrote. -/
theorem nextFetchSeesTheStore : Obligations.NextFetchSeesTheStore := by
  refine ⟨?_, ?_, ?_⟩
  · exact seenByTheNextFetch_of_store .byte (fun v => (v.extractLsb' 0 8).setWidth 32)
      (fun v => .byte (v.extractLsb' 0 8)) (fun _ _ _ _ => rfl)
      fun v k (hk : k < 1) => extractLsb'_byte_of_low v 8 k (by omega) (by omega)
  · exact seenByTheNextFetch_of_store .half (fun v => (v.extractLsb' 0 16).setWidth 32)
      (fun v => .half (v.extractLsb' 0 16)) (fun _ _ _ _ => rfl)
      fun v k (hk : k < 2) => extractLsb'_byte_of_low v 16 k (by omega) (by omega)
  · exact seenByTheNextFetch_of_store .word id .word (fun _ _ _ _ => rfl) fun _ _ _ => rfl

end Sys2Proof.Machine

/-! The encoding family: the raw field of each format bit by bit, then the same for the five immediates that extend
them, and the immediates' ranges (R63 to R67). -/

namespace Sys2Proof.Laws

/-! ### Sign extension to a word: its bits, its range, its parity -/

/-- Past the top bit `m` of a vector, its sign extension repeats that bit. -/
theorem getLsbD_signExtend_eq_min {m k : Nat} (v : BitVec (m + 1)) (hk : k < 32) :
    (v.signExtend 32).getLsbD k = v.getLsbD (min k m) := by
  rw [BitVec.getLsbD_signExtend, BitVec.msb_eq_getLsbD_last, Nat.add_sub_cancel]
  by_cases inside : k < m + 1
  · simp [hk, inside, Nat.min_eq_left (Nat.lt_succ_iff.mp inside)]
  · simp [hk, inside, Nat.min_eq_right (show m ≤ k by omega)]

theorem toInt_signExtend_range {m : Nat} (v : BitVec (m + 1)) (hm : m < 32) :
    -2 ^ m ≤ (v.signExtend 32).toInt ∧ (v.signExtend 32).toInt < 2 ^ m := by
  rw [BitVec.toInt_signExtend_of_le hm]
  exact ⟨BitVec.le_toInt v, BitVec.toInt_lt⟩

theorem two_dvd_toInt_of_bit_zero {m : Nat} (v : BitVec (m + 1)) (bit0 : v.getLsbD 0 = false) : 2 ∣ v.toInt := by
  have even : v.toNat % 2 = 0 := by simpa [BitVec.getLsbD, Nat.testBit_zero] using bit0
  rw [BitVec.toInt_eq_toNat_cond, Nat.pow_succ]
  split <;> omega

/-! ### The raw fields, bit by bit -/

theorem getLsbD_rawI (w : Word) {k : Nat} (hk : k < 12) : (rawI w).getLsbD k = w.getLsbD (20 + k) := by
  simp [rawI, hk]

theorem getLsbD_rawS (w : Word) {k : Nat} (hk : k < 12) :
    (rawS w).getLsbD k = w.getLsbD (if k < 5 then 7 + k else 20 + k) := by
  interval_cases k <;> simp [rawS]

theorem getLsbD_rawB (w : Word) {k : Nat} (hk : k < 13) (pos : 1 ≤ k) :
    (rawB w).getLsbD k = w.getLsbD (if k < 5 then 7 + k else if k < 11 then 20 + k else if k = 11 then 7 else 31) := by
  interval_cases k <;> simp [rawB]

theorem getLsbD_rawJ (w : Word) {k : Nat} (hk : k < 21) (pos : 1 ≤ k) :
    (rawJ w).getLsbD k = w.getLsbD (if k < 11 then 20 + k else if k = 11 then 20 else if k < 20 then k else 31) := by
  interval_cases k <;> simp [rawJ]

/-! ### The immediates, bit by bit -/

theorem getLsbD_immI (w : Word) {k : Nat} (hk : k < 32) :
    (immI w).getLsbD k = w.getLsbD (if k < 11 then 20 + k else 31) := by
  rw [immI, sext12, getLsbD_signExtend_eq_min _ hk, getLsbD_rawI w (by omega)]
  congr 1; split <;> omega

theorem getLsbD_immS (w : Word) {k : Nat} (hk : k < 32) :
    (immS w).getLsbD k = w.getLsbD (if k < 5 then 7 + k else if k < 11 then 20 + k else 31) := by
  rw [immS, sext12, getLsbD_signExtend_eq_min _ hk, getLsbD_rawS w (by omega)]
  congr 1; split_ifs <;> omega

theorem getLsbD_immB_zero (w : Word) : (immB w).getLsbD 0 = false := by
  rw [immB, sext13, getLsbD_signExtend_eq_min _ (by decide), Nat.zero_min]
  simpa [evenB] using evenB_rawB w

theorem getLsbD_immB (w : Word) {k : Nat} (hk : k < 32) (pos : 1 ≤ k) :
    (immB w).getLsbD k =
      w.getLsbD (if k < 5 then 7 + k else if k < 11 then 20 + k else if k = 11 then 7 else 31) := by
  rw [immB, sext13, getLsbD_signExtend_eq_min _ hk, getLsbD_rawB w (by omega) (by omega)]
  congr 1; split_ifs <;> omega

theorem getLsbD_immU (w : Word) {k : Nat} (hk : k < 32) :
    (immU w).getLsbD k = (decide (12 ≤ k) && w.getLsbD k) := by
  rw [immU, upper20, getLsbD_place]
  by_cases upper : 12 ≤ k
  · have inField : k - 12 < 20 := by omega
    simp [rawU, hk, upper, inField, Nat.not_lt.mpr upper]
  · simp [upper, Nat.lt_of_not_le upper]

theorem getLsbD_immJ_zero (w : Word) : (immJ w).getLsbD 0 = false := by
  rw [immJ, sext21, getLsbD_signExtend_eq_min _ (by decide), Nat.zero_min]
  simpa [evenJ] using evenJ_rawJ w

theorem getLsbD_immJ (w : Word) {k : Nat} (hk : k < 32) (pos : 1 ≤ k) :
    (immJ w).getLsbD k =
      w.getLsbD (if k < 11 then 20 + k else if k = 11 then 20 else if k < 20 then k else 31) := by
  rw [immJ, sext21, getLsbD_signExtend_eq_min _ hk, getLsbD_rawJ w (by omega) (by omega)]
  congr 1; split_ifs <;> omega

/-! ### The immediates' ranges -/

theorem toInt_immI_range (w : Word) : -2048 ≤ (immI w).toInt ∧ (immI w).toInt ≤ 2047 :=
  (toInt_signExtend_range (rawI w) (by decide)).imp_right Int.le_of_lt_add_one

theorem toInt_immS_range (w : Word) : -2048 ≤ (immS w).toInt ∧ (immS w).toInt ≤ 2047 :=
  (toInt_signExtend_range (rawS w) (by decide)).imp_right Int.le_of_lt_add_one

/-- An even offset below 4096 is at most 4094 (R65). -/
theorem toInt_immB_range (w : Word) : -4096 ≤ (immB w).toInt ∧ (immB w).toInt ≤ 4094 := by
  have range : -4096 ≤ (immB w).toInt ∧ (immB w).toInt < 4096 := toInt_signExtend_range (rawB w) (by decide)
  have even := two_dvd_toInt_of_bit_zero (immB w) (getLsbD_immB_zero w)
  omega

/-- An even offset below 1048576 is at most 1048574 (R67). -/
theorem toInt_immJ_range (w : Word) : -1048576 ≤ (immJ w).toInt ∧ (immJ w).toInt ≤ 1048574 := by
  have range : -1048576 ≤ (immJ w).toInt ∧ (immJ w).toInt < 1048576 := toInt_signExtend_range (rawJ w) (by decide)
  have even := two_dvd_toInt_of_bit_zero (immJ w) (getLsbD_immJ_zero w)
  omega

/-- Settles O5: the bits and the range of each immediate, format by format, and R63's example word. -/
theorem immediateBitsOfEveryWord : Obligations.ImmediateBitsOfEveryWord := by
  intro w
  obtain ⟨minI, maxI⟩ := toInt_immI_range w
  refine ⟨⟨?_, minI, maxI, by decide⟩, ⟨?_, toInt_immS_range w⟩, ⟨getLsbD_immB_zero w, ?_, toInt_immB_range w⟩, ?_,
    getLsbD_immJ_zero w, ?_, toInt_immJ_range w⟩
  · exact fun _ => getLsbD_immI w
  · exact fun _ => getLsbD_immS w
  · exact fun _ => getLsbD_immB w
  · exact fun _ => getLsbD_immU w
  · exact fun _ => getLsbD_immJ w

end Sys2Proof.Laws

/-! The execution engine family: that `exec` and `step` commute with taking the trace sink away, and what an
instruction with a destination register can do; from these the statements about the trace (R116) and about register 0
(R107). -/

namespace Sys2Proof.Machine

/-! ### The trace has no architectural effect (R116) -/

/-- An answer as it would be without a trace sink. -/
def untracedOutcome : StepOutcome → StepOutcome
  | .next t => .next (Claims.untraced t)
  | .fault f => .fault f
  | .refused r => .refused r

theorem complete_untraced (s : State) (i : Instr) (out : Out) :
    (Claims.untraced s).complete i out = untracedOutcome (s.complete i out) := rfl

theorem completeWriting_untraced (s : State) (i : Instr) (rd : Reg) (v : Word) :
    (Claims.untraced s).completeWriting i rd v = untracedOutcome (s.completeWriting i rd v) := rfl

theorem branch_untraced (s : State) (i : Instr) (offset : BitVec 13) (condition : Bool) :
    (Claims.untraced s).branch i offset condition = untracedOutcome (s.branch i offset condition) := rfl

theorem load_untraced (s : State) (i : Instr) (rd : Reg) (access : Except AbortReason Word) :
    (Claims.untraced s).load i rd access = untracedOutcome (s.load i rd access) := by
  cases access <;> rfl

theorem store_untraced (s : State) (i : Instr) (ea a : Word) (value : StoredValue) (width : Width) (v : Word) :
    (Claims.untraced s).store i ea value ((Claims.untraced s).guardWrite a width v) =
      untracedOutcome (s.store i ea value (s.guardWrite a width v)) := by
  cases admitted : s.admits .write a width with
  | true =>
    rw [State.guardWrite_ok s a width v admitted, State.guardWrite_ok (Claims.untraced s) a width v admitted]; rfl
  | false =>
    rw [State.guardWrite_error s a width v admitted, State.guardWrite_error (Claims.untraced s) a width v admitted]; rfl

theorem ecallRead_untraced (s : State) : ecallRead (Claims.untraced s) = untracedOutcome (ecallRead s) := by
  have answer : (Claims.untraced s).nextInput = s.nextInput := rfl
  unfold ecallRead
  rw [answer]
  cases s.nextInput <;> rfl

theorem execEcall_untraced (s : State) : execEcall (Claims.untraced s) = untracedOutcome (execEcall s) := by
  have selector : (Claims.untraced s).reg 17 = s.reg 17 := rfl
  unfold execEcall
  rw [selector]
  split
  · exact ecallRead_untraced s
  · split
    · rfl
    · split <;> rfl

/-- Every instruction does the same without a trace sink, but for the trace (R116). -/
theorem exec_untraced (i : Instr) (s : State) : exec i (Claims.untraced s) = untracedOutcome (exec i s) := by
  cases i with
  | add | sub | sll | slt | sltu | xor | srl | sra | or | and | mul | mulh | div | divu | rem | remu
  | addi | slti | sltiu | xori | ori | andi | slli | srli | srai
  | lui | auipc => exact completeWriting_untraced s _ _ _
  | lb | lh | lw | lbu | lhu => exact load_untraced s _ _ _
  | sb | sh | sw => exact store_untraced s _ _ _ _ _ _
  | beq | bne | blt | bge | bltu | bgeu => exact branch_untraced s _ _ _
  | jal | jalr => exact complete_untraced s _ _
  | ecall => exact execEcall_untraced s

/-- A step commutes with taking the trace sink away. -/
theorem step_untraced (s : State) : step (Claims.untraced s) = untracedOutcome (step s) := by
  have sameRun : (Claims.untraced s).run = s.run := rfl
  have sameFetch : (Claims.untraced s).fetch = s.fetch := rfl
  unfold step
  rw [sameRun, sameFetch]
  cases s.run with
  | halted | aborted => rfl
  | running =>
    cases s.fetch with
    | error reason => rfl
    | ok w =>
      show execDecoded w (Claims.untraced s) (decode w) = untracedOutcome (execDecoded w s (decode w))
      cases decode w with
      | unknown => rfl
      | instr i => exact exec_untraced i s

theorem State.trace_prefix_retire (s : State) (w : Word) (out : Out) : s.trace <+: (s.retire w out).trace := by
  rw [State.retire_trace]
  split
  · exact List.prefix_append _ _
  · exact List.prefix_rfl

/-- A step only appends to the trace. -/
theorem trace_prefix_of_step {s t : State} (stepped : step s = .next t) : s.trace <+: t.trace := by
  have outcomes := step_outcomes s
  rw [stepped] at outcomes
  cases outcomes with
  | aborts | waits => exact List.prefix_rfl
  | retires run s' w out from_ =>
    obtain ⟨-, -, -, -, -, -, -, -, trace⟩ := from_.unchanged
    exact trace ▸ s'.trace_prefix_retire w out

/-- Settles O48: a step only appends to the trace, and it commutes with taking the sink away. -/
theorem traceHasNoArchitecturalEffect : Obligations.TraceHasNoArchitecturalEffect := by
  intro s
  refine ⟨fun t stepped => ⟨trace_prefix_of_step stepped, ?_⟩, fun f stopped => ?_⟩
  · rw [step_untraced, stepped]; rfl
  · rw [step_untraced, stopped]; rfl

/-! ### The central write-back (R107) -/

/-- What an instruction that names `rd` as its destination can do: retire writing `rd` alone, or abort at a read the
memory collaborator refuses. -/
inductive DestOutcomes (i : Instr) (s : State) (rd : Reg) : StepOutcome → Prop
  | writes (v next : Word) : DestOutcomes i s rd (s.complete i { wb := some (rd, v), next := next })
  | aborts (reason : AbortReason) (a : Word) (width : Width) (refused : s.admits .read a width = false) :
      DestOutcomes i s rd (.next (s.abort reason))

theorem destOutcomes_load (i : Instr) (s : State) (rd : Reg) (a : Word) (width : Width) (v : Word) :
    DestOutcomes i s rd (s.load i rd (s.guardRead a width v)) := by
  cases admitted : s.admits .read a width with
  | true => rw [State.guardRead_ok s a width v admitted]; exact .writes _ _
  | false => rw [State.guardRead_error s a width v admitted]; exact .aborts _ a width admitted

/-- Extending the value of a guarded read is a guarded read of the extended value. -/
theorem State.map_guardRead {α β : Type} (s : State) (a : Word) (width : Width) (value : α) (extend : α → β) :
    (s.guardRead a width value).map extend = s.guardRead a width (extend value) := by
  unfold State.guardRead
  split <;> rfl

/-- A load that extends what it read, to the word it writes. -/
theorem destOutcomes_load_map {α : Type} (i : Instr) (s : State) (rd : Reg) (a : Word) (width : Width) (value : α)
    (extend : α → Word) : DestOutcomes i s rd (s.load i rd ((s.guardRead a width value).map extend)) := by
  rw [State.map_guardRead]
  exact destOutcomes_load i s rd a width _

/-- `exec` inverted for the instructions with a destination (R23). -/
theorem exec_destOutcomes {i : Instr} {rd : Reg} (dest : i.dest? = some rd) (s : State) :
    DestOutcomes i s rd (exec i s) := by
  cases i with
  | sb | sh | sw | beq | bne | blt | bge | bltu | bgeu | ecall => cases dest
  | lw => cases dest; exact destOutcomes_load _ s _ _ _ _
  | lb | lh | lbu | lhu => cases dest; exact destOutcomes_load_map _ s _ _ _ _ _
  | _ => cases dest; exact .writes _ _

/-- With an empty deny list every access is admitted (R41). -/
theorem State.admits_of_deny_nil {s : State} (noRule : s.deny = []) (kind : AccessKind) (a : Word) (width : Width) :
    s.admits kind a width = true := by
  simp [State.admits, noRule]

/-- `State.retire_reg_some`, with the guard on the requested index, as R107 puts it. -/
theorem State.retire_reg_requested (s : State) (w : Word) (out : Out) (rd : Reg) (v : Word)
    (requested : out.wb = some (rd, v)) (r : Reg) :
    (s.retire w out).reg r = if r = rd ∧ rd ≠ 0 then v else s.reg r :=
  (s.retire_reg_some w out rd v requested r).trans (if_congr (and_congr_right fun same => by rw [same]) rfl rfl)

/-- A selector-1 ecall with an answer retires, and x10 reads what the answer delivers (R251). -/
theorem exec_ecall_read {s : State} {item : InputItem} (selector : s.reg 17 = 1#32) (answer : s.nextInput = some item) :
    ∃ t, exec .ecall s = .next t ∧ t.reg 10 = inputValue s.eofValue item := by
  have read : exec .ecall s = ecallRead s := if_pos selector
  rw [read, ecallRead, answer]
  exact ⟨_, rfl, (State.retire_reg_some _ _ _ 10 _ rfl 10).trans (if_pos (by decide))⟩

/-- An instruction with rd = 0 changes no register: its write-back is discarded (R107). -/
theorem registersKept_of_dest_zero {i : Instr} {s t : State} (dest : i.dest? = some 0) (executed : exec i s = .next t) :
    Claims.RegistersKept s t := by
  have outcomes := exec_destOutcomes dest s
  rw [executed] at outcomes
  cases outcomes with
  | writes v next => exact fun r => (s.retire_reg_requested _ _ 0 v rfl r).trans (if_neg fun index => index.2 rfl)
  | aborts => exact fun _ => rfl

/-- With every access admitted, an instruction with a destination retires, whatever its index (R22). -/
theorem retires_of_dest {i : Instr} {rd : Reg} {s : State} (dest : i.dest? = some rd) (admitsAll : s.deny = []) :
    ∃ t, exec i s = .next t ∧ t.count = s.count + 1 := by
  have outcomes := exec_destOutcomes dest s
  generalize exec i s = answer at outcomes ⊢
  cases outcomes with
  | writes v next => exact ⟨_, rfl, rfl⟩
  | aborts reason a width refused => cases (State.admits_of_deny_nil admitsAll .read a width).symm.trans refused

/-- Settles O39: by the two cases of a requested write-back, and `exec` inverted for an instruction with a
destination. -/
theorem writesToRegisterZeroAreDiscarded : Obligations.WritesToRegisterZeroAreDiscarded := by
  refine ⟨fun s w out r => ?_, fun _ _ => exec_ecall_read, State.reg_zero, fun _ _ _ => registersKept_of_dest_zero,
    fun _ _ => retires_of_dest⟩
  cases requested : out.wb with
  | none => exact s.retire_reg_none w out requested r
  | some wb => exact s.retire_reg_requested w out wb.1 wb.2 requested r

end Sys2Proof.Machine

/-! The register-register integer family: what an R-type word of OP decodes to, what an instruction that retires with one
write-back leaves, and from these the rows of the comparisons and the bitwise instructions (R130 to R140). -/

namespace Sys2Proof.Machine

/-- An instruction that retires with `v` for `rd` completes writing it, and nothing else (R102, R107). -/
theorem completesWriting_of_complete {i : Instr} {s : State} {rd : Reg} {v next : Word}
    (executed : exec i s = s.complete i { wb := some (rd, v), next := next }) :
    Claims.CompletesWriting i s rd v next :=
  have advances : Claims.Advances s (s.retire (encode i) { wb := some (rd, v), next := next }) next :=
    ⟨rfl, rfl, rfl, rfl, rfl, rfl⟩
  ⟨_, executed, advances, rfl, s.retire_reg_some _ _ rd v rfl, fun _ => rfl, rfl, rfl⟩

/-- The words of opcode 0x33 are decoded by their funct7 and funct3 (R71). -/
theorem decode_encodeR_op (f7 : BitVec 7) (f3 : BitVec 3) (rd rs1 rs2 : Reg) :
    decode (encodeR f7 f3 0x33#7 rd rs1 rs2) = decodeOp (encodeR f7 f3 0x33#7 rd rs1 rs2) := by
  simp [decode]

/-- A register-register row, from the entry of R71 for its funct7 and funct3 and the value its instruction writes. -/
theorem registerRow_of_exec {f7 : BitVec 7} {f3 : BitVec 3} {i : Reg → Reg → Reg → Instr} {value : Word → Word → Word}
    (decoded : ∀ w, funct7 w = f7 → funct3 w = f3 → decodeOp w = .instr (i (rdOf w) (rs1Of w) (rs2Of w)))
    (executed : ∀ (s : State) (rd rs1 rs2 : Reg), exec (i rd rs1 rs2) s =
      s.completeWriting (i rd rs1 rs2) rd (value (s.reg rs1) (s.reg rs2))) :
    Claims.RegisterRow f7 f3 i value := by
  refine fun s rd rs1 rs2 => ⟨?_, completesWriting_of_complete (executed s rd rs1 rs2)⟩
  rw [decode_encodeR_op, decoded _ (Laws.funct7_encodeR ..) (Laws.funct3_encodeR ..), Laws.rdOf_encodeR,
    Laws.rs1Of_encodeR, Laws.rs2Of_encodeR]

/-- `(a <s b) ? 1 : 0`, in integers (R10, R134). -/
theorem oneIf_lessSigned (a b : Word) : oneIf (lessSigned a b) = if a.toInt < b.toInt then 1#32 else 0#32 := by
  simp only [oneIf, lessSigned, decide_eq_true_eq]

/-- `(a <u b) ? 1 : 0`, in natural numbers (R10, R135). -/
theorem oneIf_lessUnsigned (a b : Word) : oneIf (lessUnsigned a b) = if a.toNat < b.toNat then 1#32 else 0#32 := by
  simp only [oneIf, lessUnsigned, decide_eq_true_eq]

/-- Settles O7: each row is an entry of R71's table, and the two comparisons write 1 or 0 by the integers' order. -/
theorem comparisonsAndBitwiseInstructionsWriteTheirResult :
    Obligations.ComparisonsAndBitwiseInstructionsWriteTheirResult := by
  refine ⟨registerRow_of_exec ?slt fun s rd rs1 rs2 => congrArg (s.completeWriting _ rd) (oneIf_lessSigned _ _),
    registerRow_of_exec ?sltu fun s rd rs1 rs2 => congrArg (s.completeWriting _ rd) (oneIf_lessUnsigned _ _),
    registerRow_of_exec ?xor fun _ _ _ _ => rfl, registerRow_of_exec ?or fun _ _ _ _ => rfl,
    registerRow_of_exec ?and fun _ _ _ _ => rfl⟩
  all_goals
    intro w h7 h3
    simp [decodeOp, h7, h3]

end Sys2Proof.Machine

/-! The multiply and divide family: the upper word of the signed product, and from it the rows of mul, mulh, divu and remu
(R151, R152, R154, R156). -/

namespace Sys2Proof.Machine

/-- Bits 63:32 of an integer's 64-bit form are its floor quotient by 2^32. -/
theorem extractLsb'_ofInt_high (x : Int) : (BitVec.ofInt 64 x).extractLsb' 32 32 = BitVec.ofInt 32 (x / 2 ^ 32) := by
  apply BitVec.eq_of_toNat_eq
  simp only [BitVec.extractLsb'_toNat, BitVec.toNat_ofInt, Nat.shiftRight_eq_div_pow]
  omega

/-- The upper word of the signed product is its floor quotient by 2^32 (R152). -/
theorem mulHighSigned_eq (a b : Word) : mulHighSigned a b = BitVec.ofInt 32 (a.toInt * b.toInt / 2 ^ 32) :=
  extractLsb'_ofInt_high _

/-- Settles O9: each row is an entry of R71's table; mul, divu and remu write the stated value as it stands, the zero
divisor included, and mulh writes the upper word of the product. -/
theorem productsAndUnsignedQuotientsWriteTheirResult : Obligations.ProductsAndUnsignedQuotientsWriteTheirResult := by
  refine ⟨registerRow_of_exec ?mul fun _ _ _ _ => rfl,
    registerRow_of_exec ?mulh fun s rd rs1 rs2 => congrArg (s.completeWriting _ rd) (mulHighSigned_eq _ _),
    registerRow_of_exec ?divu fun _ _ _ _ => rfl, registerRow_of_exec ?remu fun _ _ _ _ => rfl⟩
  all_goals
    intro w h7 h3
    simp [decodeOp, h7, h3]

end Sys2Proof.Machine

/-! The register-immediate integer family: what an I-type word of OP-IMM decodes to, the sign-extended immediate as an
integer, and from these the rows of addi, slti and the bitwise immediate instructions (R170 to R176). -/

namespace Sys2Proof.Machine

/-- The words of opcode 0x13 are decoded by their funct3, and the right shifts by bit 10 of the immediate (R73). -/
theorem decode_encodeI_opImm (f3 : BitVec 3) (rd rs1 : Reg) (imm : BitVec 12) :
    decode (encodeI f3 0x13#7 rd rs1 imm) = decodeOpImm (encodeI f3 0x13#7 rd rs1 imm) := by
  simp [decode]

/-- A register-immediate row, from the entry of R73 for its funct3 and the immediates it takes, and the value its
instruction writes. -/
theorem immediateRow_of_exec {f3 : BitVec 3} {i : Reg → Reg → BitVec 12 → Instr} {encodes : BitVec 12 → Prop}
    {value : Word → BitVec 12 → Word}
    (decoded : ∀ w, funct3 w = f3 → encodes (rawI w) → decodeOpImm w = .instr (i (rdOf w) (rs1Of w) (rawI w)))
    (executed : ∀ (s : State) (rd rs1 : Reg) (imm : BitVec 12), exec (i rd rs1 imm) s =
      s.completeWriting (i rd rs1 imm) rd (value (s.reg rs1) imm)) :
    Claims.ImmediateRow f3 i encodes value := by
  refine fun s rd rs1 imm => ⟨fun admitted => ?_, completesWriting_of_complete (executed s rd rs1 imm)⟩
  rw [decode_encodeI_opImm, decoded _ (Laws.funct3_encodeI ..) ((Laws.rawI_encodeI ..).symm ▸ admitted),
    Laws.rdOf_encodeI, Laws.rs1Of_encodeI, Laws.rawI_encodeI]

/-- The sign-extended immediate is the 32-bit form of the field's integer (R63). -/
theorem sext12_eq_ofInt (imm : BitVec 12) : sext12 imm = BitVec.ofInt 32 imm.toInt := rfl

/-- Sign extension keeps the field's integer (R63). -/
theorem toInt_sext12 (imm : BitVec 12) : (sext12 imm).toInt = imm.toInt :=
  BitVec.toInt_signExtend_of_le (by omega)

/-- Adding the sign-extended immediate is the integers' sum, modulo 2^32 (R171). -/
theorem add_sext12 (a : Word) (imm : BitVec 12) : a + sext12 imm = BitVec.ofInt 32 (a.toNat + imm.toInt) := by
  rw [sext12_eq_ofInt, BitVec.ofInt_add, BitVec.ofInt_natCast, BitVec.ofNat_toNat, BitVec.setWidth_eq]

/-- `(a <s imm_i) ? 1 : 0`, in integers (R172). -/
theorem oneIf_lessSigned_sext12 (a : Word) (imm : BitVec 12) :
    oneIf (lessSigned a (sext12 imm)) = if a.toInt < imm.toInt then 1#32 else 0#32 := by
  rw [oneIf_lessSigned, toInt_sext12]

/-- Settles O12: each row is an entry of R73's table; addi writes the integers' sum and slti their order, and the bitwise
ones take the sign-extended immediate as it stands. -/
theorem immediateInstructionsWriteTheirResult : Obligations.ImmediateInstructionsWriteTheirResult := by
  refine ⟨immediateRow_of_exec ?addi fun s rd rs1 imm => congrArg (s.completeWriting _ rd) (add_sext12 _ _),
    immediateRow_of_exec ?slti fun s rd rs1 imm => congrArg (s.completeWriting _ rd) (oneIf_lessSigned_sext12 _ _),
    immediateRow_of_exec ?xori fun _ _ _ _ => rfl, immediateRow_of_exec ?ori fun _ _ _ _ => rfl,
    immediateRow_of_exec ?andi fun _ _ _ _ => rfl⟩
  all_goals
    intro w h3 _
    simp [decodeOpImm, h3]

end Sys2Proof.Machine

/-! The branch family: what an instruction that retires without a write-back leaves, what a B-type word of BRANCH decodes
to, the target as an integer, and from these the rows of the six branches (R210 to R216). -/

namespace Sys2Proof.Machine

/-- An instruction that retires with no write-back and no halt completes, and changes nothing else (R102). -/
theorem completesPlain_of_complete {i : Instr} {s : State} {next : Word} {note : Note}
    (executed : exec i s = s.complete i { next := next, note := note }) : Claims.CompletesPlain i s next :=
  have advances : Claims.Advances s (s.retire (encode i) { next := next, note := note }) next :=
    ⟨rfl, rfl, rfl, rfl, rfl, rfl⟩
  ⟨_, executed, advances, rfl, s.retire_reg_none _ _ rfl, fun _ => rfl, rfl, rfl⟩

/-- The words of opcode 0x63 are decoded by their funct3 (R76). -/
theorem decode_encodeB_branch (f3 : BitVec 3) (rs1 rs2 : Reg) (offset : BitVec 13) :
    decode (encodeB f3 0x63#7 rs1 rs2 offset) = decodeBranch (encodeB f3 0x63#7 rs1 rs2 offset) := by
  simp [decode]

/-- Adding a sign-extended field to a word is the integers' sum, modulo 2^32 (R10). -/
theorem add_signExtend_eq_ofInt {n : Nat} (a : Word) (v : BitVec n) :
    a + v.signExtend 32 = BitVec.ofInt 32 (a.toNat + v.toInt) := by
  rw [BitVec.signExtend, BitVec.ofInt_add, BitVec.ofInt_natCast, BitVec.ofNat_toNat, BitVec.setWidth_eq]

/-- The target is the integers' sum, modulo 2^32 (R210). -/
theorem branchTarget_eq_ofInt (s : State) (offset : BitVec 13) :
    branchTarget s offset = BitVec.ofInt 32 (s.pc.toNat + offset.toInt) :=
  add_signExtend_eq_ofInt s.pc offset

/-- A branch row, from the entry of R76 for its funct3, and the comparison its instruction makes. -/
theorem branchRow_of_exec {f3 : BitVec 3} {i : Reg → Reg → BitVec 13 → Instr} {taken : Word → Word → Prop}
    {compare : Word → Word → Bool}
    (decoded : ∀ w, funct3 w = f3 → decodeBranch w = .instr (i (rs1Of w) (rs2Of w) (rawB w)))
    (executed : ∀ (s : State) (rs1 rs2 : Reg) (offset : BitVec 13), exec (i rs1 rs2 offset) s =
      s.branch (i rs1 rs2 offset) offset (compare (s.reg rs1) (s.reg rs2)))
    (compare_iff : ∀ a b, compare a b = true ↔ taken a b) :
    Claims.BranchRow f3 i taken := by
  refine fun s rs1 rs2 offset => ⟨fun even => ?decodes, fun holds => ?taken, fun fails => ?notTaken⟩
  case decodes =>
    rw [decode_encodeB_branch, decoded _ (Laws.funct3_encodeB ..), Laws.rs1Of_encodeB, Laws.rs2Of_encodeB,
      Laws.rawB_encodeB _ _ _ _ _ (by simp only [evenB, even, Bool.not_false])]
  case taken =>
    have condition := (compare_iff (s.reg rs1) (s.reg rs2)).mpr holds
    rw [← branchTarget_eq_ofInt]
    exact completesPlain_of_complete ((executed s rs1 rs2 offset).trans (congrArg (s.branch _ offset) condition))
  case notTaken =>
    have condition := Bool.eq_false_iff.mpr (mt (compare_iff (s.reg rs1) (s.reg rs2)).mp fails)
    exact completesPlain_of_complete ((executed s rs1 rs2 offset).trans (congrArg (s.branch _ offset) condition))

/-- Settles O22: each row is an entry of R76's table, and its comparison decides the stated condition. -/
theorem branchesGoToTheirTargetWhenTaken : Obligations.BranchesGoToTheirTargetWhenTaken := by
  refine ⟨branchRow_of_exec ?beq (fun _ _ _ _ => rfl) fun _ _ => beq_iff_eq,
    branchRow_of_exec ?bne (fun _ _ _ _ => rfl) fun _ _ => bne_iff_ne,
    branchRow_of_exec ?blt (fun _ _ _ _ => rfl) fun _ _ => decide_eq_true_iff,
    branchRow_of_exec ?bge (fun _ _ _ _ => rfl) fun _ _ => decide_eq_true_iff,
    branchRow_of_exec ?bltu (fun _ _ _ _ => rfl) fun _ _ => decide_eq_true_iff,
    branchRow_of_exec ?bgeu (fun _ _ _ _ => rfl) fun _ _ => decide_eq_true_iff⟩
  all_goals
    intro w h3
    simp [decodeBranch, h3]

end Sys2Proof.Machine

/-! The upper-immediate family: what a U-type word of opcode 0x37 decodes to, a placed field as a product, and from these
the statement about lui (R231). -/

namespace Sys2Proof.Machine

/-- The words of opcode 0x37 are lui, with the fields they were built from (R81). -/
theorem decode_encodeU_lui (rd : Reg) (imm20 : BitVec 20) :
    decode (encodeU 0x37#7 rd imm20) = .instr (.lui rd imm20) := by
  simp [decode, Laws.opcode_encodeU, Laws.rdOf_encodeU, Laws.rawU_encodeU]

/-- Placing a field at bit `lo` multiplies it by `2 ^ lo`, modulo `2 ^ n`. -/
theorem place_eq_ofNat {k n : Nat} (lo : Nat) (field : BitVec k) :
    place n lo field = BitVec.ofNat n (field.toNat * 2 ^ lo) := by
  apply BitVec.eq_of_toNat_eq
  simp [place, Nat.shiftLeft_eq]

/-- `imm20 << 12` is the field times 4096 (R66, R231). -/
theorem upper20_eq_ofNat (imm20 : BitVec 20) : upper20 imm20 = BitVec.ofNat 32 (imm20.toNat * 4096) :=
  place_eq_ofNat 12 imm20

/-- Settles O23: opcode 0x37 is lui, whatever the fields, and lui completes writing the placed field, which is the field
times 4096. -/
theorem luiWritesItsResult : Obligations.LuiWritesItsResult := fun s rd imm20 =>
  have executed : exec (.lui rd imm20) s =
      s.completeWriting (.lui rd imm20) rd (BitVec.ofNat 32 (imm20.toNat * 4096)) :=
    congrArg (s.completeWriting _ rd) (upper20_eq_ofNat imm20)
  ⟨decode_encodeU_lui rd imm20, completesWriting_of_complete executed⟩

end Sys2Proof.Machine

/-! The jump family: what the words of opcodes 0x6F and 0x67 decode to, the two targets, and from these the statement
about jal and jalr (R240 to R242). -/

namespace Sys2Proof.Machine

/-- The words of opcode 0x6F are jal, with the fields they were built from, where the offset is even (R77). -/
theorem decode_encodeJ_jal (rd : Reg) (offset : BitVec 21) (even : offset.getLsbD 0 = false) :
    decode (encodeJ 0x6F#7 rd offset) = .instr (.jal rd offset) := by
  have isEven : evenJ offset = true := by simp only [evenJ, even, Bool.not_false]
  simp [decode, Laws.opcode_encodeJ, Laws.rdOf_encodeJ, Laws.rawJ_encodeJ _ _ _ isEven]

/-- The words of opcode 0x67 and funct3 0 are jalr, with the fields they were built from (R78). -/
theorem decode_encodeI_jalr (rd rs1 : Reg) (imm : BitVec 12) :
    decode (encodeI 0#3 0x67#7 rd rs1 imm) = .instr (.jalr rd rs1 imm) := by
  simp [decode, decodeJalr, Laws.opcode_encodeI, Laws.funct3_encodeI, Laws.rdOf_encodeI, Laws.rs1Of_encodeI,
    Laws.rawI_encodeI]

/-- The target of jal is the integers' sum, modulo 2^32 (R241). -/
theorem jalTarget_eq_ofInt (s : State) (offset : BitVec 21) :
    jalTarget s offset = BitVec.ofInt 32 (s.pc.toNat + offset.toInt) :=
  add_signExtend_eq_ofInt s.pc offset

/-- The bits of jalr's mask: all but bit 0 (R242). -/
theorem getLsbD_jalrMask : ∀ k < 32, (0xFFFFFFFE#32).getLsbD k = decide (1 ≤ k) := by decide

/-- The bits of jalr's target: those of the sum from the old rs1, with bit 0 cleared (R242). -/
theorem getLsbD_jalrTarget (s : State) (rs1 : Reg) (imm : BitVec 12) {k : Nat} (hk : k < 32) :
    (jalrTarget s rs1 imm).getLsbD k = ((s.reg rs1 + imm.signExtend 32).getLsbD k && decide (1 ≤ k)) := by
  rw [jalrTarget, BitVec.getLsbD_and, getLsbD_jalrMask k hk, sext12]

/-- Settles O25: both words decode to their instruction, whose one write-back is the link; jal goes to the integers' sum,
and jalr to the sum of the old rs1 and the displacement under the mask that clears bit 0 alone. -/
theorem jumpsLinkAndGoToTheirTarget : Obligations.JumpsLinkAndGoToTheirTarget := by
  refine ⟨fun s rd offset => ⟨decode_encodeJ_jal rd offset, ?jal⟩, fun s rd rs1 imm =>
    ⟨decode_encodeI_jalr rd rs1 imm, jalrTarget s rs1 imm, ?bitZero, fun k hk pos => ?above,
      completesWriting_of_complete rfl⟩⟩
  case jal =>
    rw [← jalTarget_eq_ofInt]
    exact completesWriting_of_complete rfl
  case bitZero => rw [getLsbD_jalrTarget s rs1 imm (by decide), decide_eq_false (by decide), Bool.and_false]
  case above => rw [getLsbD_jalrTarget s rs1 imm hk, decide_eq_true pos, Bool.and_true]

end Sys2Proof.Machine

/-! The decoder and the encoder undo each other, and the decoder and the opcode table name the same words (R62, R70 to
R81). -/

namespace Sys2Proof.Laws

open Sys2Proof.Machine

/-! ### Decoding an encoded instruction -/

/-- No operand bit of a well-formed instruction is lost in its word, format by format (R62, R70 to R79). -/
theorem decode_encode {i : Instr} (wf : i.wellFormed = true) : decode (encode i) = .instr i := by
  cases i with
  | add | sub | sll | slt | sltu | xor | srl | sra | or | and | mul | mulh | div | divu | rem | remu =>
    simp [encode, decode_encodeR_op, decodeOp]
  | addi | slti | sltiu | xori | ori | andi | slli => simp [encode, decode_encodeI_opImm, decodeOpImm]
  | srli | srai =>
    simp only [Instr.wellFormed, Bool.not_eq_true'] at wf
    simp [encode, decode_encodeI_opImm, decodeOpImm, wf]
  | lb | lh | lw | lbu | lhu => simp [encode, decode, decodeLoad]
  | sb | sh | sw => simp [encode, decode, decodeStore]
  | beq | bne | blt | bge | bltu | bgeu =>
    simp [encode, decode_encodeB_branch, decodeBranch, rawB_encodeB _ _ _ _ _ wf]
  | lui rd imm20 => exact decode_encodeU_lui rd imm20
  | auipc => simp [encode, decode]
  | jal => simp [encode, decode, rawJ_encodeJ _ _ _ wf]
  | jalr rd rs1 imm => exact decode_encodeI_jalr rd rs1 imm
  | ecall => rfl

/-- Settles O2, format by format. -/
theorem decodeOfEncodeIsIdentity : Obligations.DecodeOfEncodeIsIdentity := fun _ => decode_encode

/-! ### Encoding a decoded word -/

/-- `i` is a well-formed instruction whose word is `w`. -/
def Encodes (i : Instr) (w : Word) : Prop := encode i = w ∧ i.wellFormed = true

theorem eq_ofNat_of_toNat {n k : Nat} {v : BitVec n} (h : v.toNat = k) : v = BitVec.ofNat n k := by
  rw [← h, BitVec.ofNat_toNat, BitVec.setWidth_eq]

theorem encodes_of_decodeOp {w : Word} {i : Instr} (op : opcode w = 0x33#7) (decoded : decodeOp w = .instr i) :
    Encodes i w := by
  have whole := encodeR_fields w
  unfold decodeOp at decoded
  split at decoded <;> cases decoded
  all_goals
    next f7 f3 =>
    rw [op, eq_ofNat_of_toNat f7, eq_ofNat_of_toNat f3] at whole
    exact ⟨whole, rfl⟩

theorem encodes_of_decodeOpImm {w : Word} {i : Instr} (op : opcode w = 0x13#7) (decoded : decodeOpImm w = .instr i) :
    Encodes i w := by
  have whole := encodeI_fields w
  unfold decodeOpImm at decoded
  split at decoded
  case h_6 f3 =>
    rw [op, eq_ofNat_of_toNat f3] at whole
    split at decoded <;> cases decoded
    next bit => exact ⟨whole, bit⟩
    next bit => exact ⟨whole, by simpa [Instr.wellFormed] using bit⟩
  case h_8 =>
    have f3 : (funct3 w).toNat = 7 := by have := (funct3 w).isLt; grind
    rw [op, eq_ofNat_of_toNat f3] at whole
    cases decoded
    exact ⟨whole, rfl⟩
  all_goals
    next f3 =>
    rw [op, eq_ofNat_of_toNat f3] at whole
    cases decoded
    exact ⟨whole, rfl⟩

theorem encodes_of_decodeLoad {w : Word} {i : Instr} (op : opcode w = 0x03#7) (decoded : decodeLoad w = .instr i) :
    Encodes i w := by
  have whole := encodeI_fields w
  unfold decodeLoad at decoded
  split at decoded <;> cases decoded
  all_goals
    next f3 =>
    rw [op, eq_ofNat_of_toNat f3] at whole
    exact ⟨whole, rfl⟩

theorem encodes_of_decodeStore {w : Word} {i : Instr} (op : opcode w = 0x23#7) (decoded : decodeStore w = .instr i) :
    Encodes i w := by
  have whole := encodeS_fields w
  unfold decodeStore at decoded
  split at decoded <;> cases decoded
  all_goals
    next f3 =>
    rw [op, eq_ofNat_of_toNat f3] at whole
    exact ⟨whole, rfl⟩

theorem encodes_of_decodeBranch {w : Word} {i : Instr} (op : opcode w = 0x63#7) (decoded : decodeBranch w = .instr i) :
    Encodes i w := by
  have whole := encodeB_fields w
  unfold decodeBranch at decoded
  split at decoded <;> cases decoded
  all_goals
    next f3 =>
    rw [op, eq_ofNat_of_toNat f3] at whole
    exact ⟨whole, evenB_rawB w⟩

theorem encodes_of_decodeJalr {w : Word} {i : Instr} (op : opcode w = 0x67#7) (decoded : decodeJalr w = .instr i) :
    Encodes i w := by
  have whole := encodeI_fields w
  unfold decodeJalr at decoded
  split at decoded <;> cases decoded
  next f3 =>
    rw [op, eq_ofNat_of_toNat f3] at whole
    exact ⟨whole, rfl⟩

theorem encodes_of_decodeSystem {w : Word} {i : Instr} (decoded : decodeSystem w = .instr i) : Encodes i w := by
  unfold decodeSystem at decoded
  split at decoded <;> cases decoded
  next word => exact ⟨word.symm, rfl⟩

/-- A word that decodes to an instruction is its encoding, opcode by opcode (R62, R70 to R81). -/
theorem encodes_of_decode {w : Word} {i : Instr} (decoded : decode w = .instr i) : Encodes i w := by
  unfold decode at decoded
  split at decoded
  case h_1 op => exact encodes_of_decodeOp (eq_ofNat_of_toNat op) decoded
  case h_2 op => exact encodes_of_decodeOpImm (eq_ofNat_of_toNat op) decoded
  case h_3 op => exact encodes_of_decodeLoad (eq_ofNat_of_toNat op) decoded
  case h_4 op => exact encodes_of_decodeStore (eq_ofNat_of_toNat op) decoded
  case h_5 op => exact encodes_of_decodeBranch (eq_ofNat_of_toNat op) decoded
  case h_6 op | h_7 op =>
    have whole := encodeU_fields w
    rw [eq_ofNat_of_toNat op] at whole
    cases decoded
    exact ⟨whole, rfl⟩
  case h_8 op =>
    have whole := encodeJ_fields w
    rw [eq_ofNat_of_toNat op] at whole
    cases decoded
    exact ⟨whole, evenJ_rawJ w⟩
  case h_9 op => exact encodes_of_decodeJalr (eq_ofNat_of_toNat op) decoded
  case h_10 => exact encodes_of_decodeSystem decoded
  case h_11 => cases decoded

/-- Settles O3, opcode by opcode: a word is the encoding of its own fields. -/
theorem encodeOfDecodeIsIdentity : Obligations.EncodeOfDecodeIsIdentity := fun _ _ => encodes_of_decode

end Sys2Proof.Laws

/-! The opcode table: every instruction has its row, which holds of its word, and a row fixes the fields that its
instruction is decoded on (30_encoding.md sections 4 and 5). -/

namespace Sys2Proof.Laws

/-! ### From an instruction to its row -/

/-- Every instruction has its row in the table, and the row holds of its word. -/
theorem tableRow (i : Instr) : TableRow.Statement i := by
  cases i with
  | add => exact TableRow.add _ _ _
  | sub => exact TableRow.sub _ _ _
  | sll => exact TableRow.sll _ _ _
  | slt => exact TableRow.slt _ _ _
  | sltu => exact TableRow.sltu _ _ _
  | xor => exact TableRow.xor _ _ _
  | srl => exact TableRow.srl _ _ _
  | sra => exact TableRow.sra _ _ _
  | or => exact TableRow.or _ _ _
  | and => exact TableRow.and _ _ _
  | mul => exact TableRow.mul _ _ _
  | mulh => exact TableRow.mulh _ _ _
  | div => exact TableRow.div _ _ _
  | divu => exact TableRow.divu _ _ _
  | rem => exact TableRow.rem _ _ _
  | remu => exact TableRow.remu _ _ _
  | addi => exact TableRow.addi _ _ _
  | slti => exact TableRow.slti _ _ _
  | sltiu => exact TableRow.sltiu _ _ _
  | xori => exact TableRow.xori _ _ _
  | ori => exact TableRow.ori _ _ _
  | andi => exact TableRow.andi _ _ _
  | slli => exact TableRow.slli _ _ _
  | srli => exact TableRow.srli _ _ _
  | srai => exact TableRow.srai _ _ _
  | lb => exact TableRow.lb _ _ _
  | lh => exact TableRow.lh _ _ _
  | lw => exact TableRow.lw _ _ _
  | lbu => exact TableRow.lbu _ _ _
  | lhu => exact TableRow.lhu _ _ _
  | sb => exact TableRow.sb _ _ _
  | sh => exact TableRow.sh _ _ _
  | sw => exact TableRow.sw _ _ _
  | beq => exact TableRow.beq _ _ _
  | bne => exact TableRow.bne _ _ _
  | blt => exact TableRow.blt _ _ _
  | bge => exact TableRow.bge _ _ _
  | bltu => exact TableRow.bltu _ _ _
  | bgeu => exact TableRow.bgeu _ _ _
  | lui => exact TableRow.lui _ _
  | auipc => exact TableRow.auipc _ _
  | jal => exact TableRow.jal _ _
  | jalr => exact TableRow.jalr _ _ _
  | ecall => exact TableRow.ecall

/-- No two rows bear one mnemonic. -/
theorem eq_of_mnemonic_eq : ∀ row ∈ opcodeTable, ∀ row' ∈ opcodeTable, row.mnemonic = row'.mnemonic → row = row' := by
  decide

/-- The mnemonic of what a word decodes to; none for Unknown. -/
def mnemonicOf : Decoded → Option Text
  | .instr i => some i.mnemonic
  | .unknown => none

theorem mnemonicOf_eq_some {d : Decoded} {name : Text} :
    mnemonicOf d = some name ↔ ∃ i, d = .instr i ∧ i.mnemonic = name := by
  cases d <;> simp [mnemonicOf]

/-- A row holds of a word that decodes to an instruction of its mnemonic. -/
theorem holds_of_mnemonic {w : Word} {row : OpcodeRow} (listed : row ∈ opcodeTable)
    (name : mnemonicOf (decode w) = some row.mnemonic) : row.holds w = true := by
  obtain ⟨i, decoded, named⟩ := mnemonicOf_eq_some.mp name
  obtain ⟨word, wf⟩ := encodes_of_decode decoded
  obtain ⟨row', listed', named', holds⟩ := tableRow i
  rw [eq_of_mnemonic_eq row listed row' listed' (named.symm.trans named'.symm), ← word]
  exact holds wf

/-! ### From a row to its instruction -/

/-- Where the mask covers a field whole, the row fixes it. -/
theorem field_of_masked {w mask bits : Word} {lo len : Nat} (masked : w &&& mask = bits)
    (covers : mask.extractLsb' lo len = BitVec.allOnes len) : w.extractLsb' lo len = bits.extractLsb' lo len := by
  rw [← masked, BitVec.extractLsb'_and, covers, BitVec.and_allOnes]

theorem opcode_of_masked {w mask bits : Word} (masked : w &&& mask = bits)
    (covers : mask.extractLsb' 0 7 = BitVec.allOnes 7) : (opcode w).toNat = (bits.extractLsb' 0 7).toNat :=
  congrArg BitVec.toNat (field_of_masked masked covers)

theorem funct3_of_masked {w mask bits : Word} (masked : w &&& mask = bits)
    (covers : mask.extractLsb' 12 3 = BitVec.allOnes 3) : (funct3 w).toNat = (bits.extractLsb' 12 3).toNat :=
  congrArg BitVec.toNat (field_of_masked masked covers)

theorem funct7_of_masked {w mask bits : Word} (masked : w &&& mask = bits)
    (covers : mask.extractLsb' 25 7 = BitVec.allOnes 7) : (funct7 w).toNat = (bits.extractLsb' 25 7).toNat :=
  congrArg BitVec.toNat (field_of_masked masked covers)

theorem arithmeticBit_of_masked {w mask bits : Word} (masked : w &&& mask = bits) (covers : mask.getLsbD 30 = true) :
    arithmeticBit (rawI w) = bits.getLsbD 30 := by
  rw [← masked, BitVec.getLsbD_and, covers, Bool.and_true]
  exact getLsbD_rawI w (by decide)

theorem mnemonic_of_rowOp {w : Word} : ∀ row ∈ opcodeRowsOp, row.holds w = true →
    mnemonicOf (decode w) = some row.mnemonic := by
  simp only [opcodeRowsOp, List.forall_mem_cons, OpcodeRow.holds, beq_iff_eq]
  refine ⟨?_, ?_, ?_, ?_, ?_, ?_, ?_, ?_, ?_, ?_, ?_, ?_, ?_, ?_, ?_, ?_, by simp⟩
  all_goals
    intro masked
    simp [decode, decodeOp, opcode_of_masked masked rfl, funct7_of_masked masked rfl, funct3_of_masked masked rfl,
      mnemonicOf, Instr.mnemonic]

theorem mnemonic_of_rowOpImm {w : Word} : ∀ row ∈ opcodeRowsOpImm, row.holds w = true →
    mnemonicOf (decode w) = some row.mnemonic := by
  simp only [opcodeRowsOpImm, List.forall_mem_cons, OpcodeRow.holds, beq_iff_eq]
  refine ⟨?_, ?_, ?_, ?_, ?_, ?_, ?_, ?srli, ?srai, by simp⟩
  case srli | srai =>
    intro masked
    simp [decode, decodeOpImm, opcode_of_masked masked rfl, funct3_of_masked masked rfl,
      arithmeticBit_of_masked masked rfl, mnemonicOf, Instr.mnemonic]
  all_goals
    intro masked
    simp [decode, decodeOpImm, opcode_of_masked masked rfl, funct3_of_masked masked rfl, mnemonicOf, Instr.mnemonic]

theorem mnemonic_of_rowMemory {w : Word} : ∀ row ∈ opcodeRowsMemory, row.holds w = true →
    mnemonicOf (decode w) = some row.mnemonic := by
  simp only [opcodeRowsMemory, List.forall_mem_cons, OpcodeRow.holds, beq_iff_eq]
  refine ⟨?_, ?_, ?_, ?_, ?_, ?_, ?_, ?_, by simp⟩
  all_goals
    intro masked
    simp [decode, decodeLoad, decodeStore, opcode_of_masked masked rfl, funct3_of_masked masked rfl, mnemonicOf,
      Instr.mnemonic]

theorem mnemonic_of_rowControl {w : Word} : ∀ row ∈ opcodeRowsControl, row.holds w = true →
    mnemonicOf (decode w) = some row.mnemonic := by
  simp only [opcodeRowsControl, List.forall_mem_cons, OpcodeRow.holds, beq_iff_eq]
  refine ⟨?_, ?_, ?_, ?_, ?_, ?_, ?lui, ?auipc, ?jal, ?_, ?ecall, by simp⟩
  case lui | auipc | jal =>
    intro masked
    simp [decode, opcode_of_masked masked rfl, mnemonicOf, Instr.mnemonic]
  case ecall =>
    intro masked
    rw [(BitVec.and_allOnes (x := w)).symm.trans masked]
    rfl
  all_goals
    intro masked
    simp [decode, decodeBranch, decodeJalr, opcode_of_masked masked rfl, funct3_of_masked masked rfl, mnemonicOf,
      Instr.mnemonic]

/-- A word of a row decodes to an instruction of the row's mnemonic. -/
theorem mnemonic_of_holds {w : Word} {row : OpcodeRow} (listed : row ∈ opcodeTable) (holds : row.holds w = true) :
    mnemonicOf (decode w) = some row.mnemonic := by
  simp only [opcodeTable, List.mem_append] at listed
  rcases listed with ((op | opImm) | memory) | control
  · exact mnemonic_of_rowOp row op holds
  · exact mnemonic_of_rowOpImm row opImm holds
  · exact mnemonic_of_rowMemory row memory holds
  · exact mnemonic_of_rowControl row control holds

/-- Settles O4: a row fixes the fields that its instruction is decoded on, and a decoded word is an encoding, of which
its row holds. -/
theorem decoderAgreesWithOpcodeTable : Obligations.DecoderAgreesWithOpcodeTable := fun _ _ listed =>
  ⟨fun holds => mnemonicOf_eq_some.mp (mnemonic_of_holds listed holds),
    fun decoded => holds_of_mnemonic listed (mnemonicOf_eq_some.mpr decoded)⟩

end Sys2Proof.Laws

/-! The named words of the encoding family: the Unknown words that the spec names, jalr and ecall against the other
words of their opcodes (R78, R79, R82), and the words written out from the spec. -/

namespace Sys2Proof.Laws

open Sys2Proof.Machine

/-- The ten opcodes under which a word can decode to an instruction (R70). -/
def decodedOpcodes : List (BitVec 7) :=
  [0x33#7, 0x13#7, 0x03#7, 0x23#7, 0x63#7, 0x37#7, 0x17#7, 0x6F#7, 0x67#7, 0x73#7]

/-- Under every other opcode a word is Unknown (R80). -/
theorem decode_of_opcode_not_mem {w : Word} (foreign : opcode w ∉ decodedOpcodes) : decode w = .unknown := by
  unfold decode
  split
  case h_11 => rfl
  all_goals
    next op => exact absurd (by rw [eq_ofNat_of_toNat op]; decide) foreign

/-- The low two bits of a word are those of its opcode (R61). -/
theorem lowBits_eq (w : Word) : w.extractLsb' 0 2 = (opcode w).extractLsb' 0 2 := by
  ext i hi; interval_cases i <;> simp [opcode]

/-- A word whose low two bits are not 11 is Unknown (R82). -/
theorem decode_of_lowBits {w : Word} (low : w.extractLsb' 0 2 ≠ 0b11#2) : decode w = .unknown := by
  have ends : ∀ op ∈ decodedOpcodes, op.extractLsb' 0 2 = 0b11#2 := by decide
  exact decode_of_opcode_not_mem fun listed => low ((lowBits_eq w).trans (ends _ listed))

/-- Settles O6: no other opcode is decoded, each decoded one ends in 11, and the five opcodes named are decided by their
own entries (R71, R76, R78, R79). -/
theorem namedReservedWordsAreUnknown : Obligations.NamedReservedWordsAreUnknown := by
  intro w
  refine ⟨decode_of_lowBits, fun listed => decode_of_opcode_not_mem ?foreign, fun op f7 f3 => ?multiply,
    fun op f3 => ?branch, fun op => ?jalr, fun op => ?ecall, rfl, rfl⟩
  case foreign =>
    have apart : ∀ op ∈ [0x0F#7, 0x2F#7, 0x07#7, 0x27#7, 0x53#7, 0x43#7, 0x47#7, 0x4B#7, 0x4F#7, 0x1B#7, 0x3B#7, 0x0B#7,
      0x2B#7, 0x5B#7, 0x7B#7], op ∉ decodedOpcodes := by decide
    exact apart _ listed
  case multiply => rcases f3 with f3 | f3 <;> simp [decode, decodeOp, op, f7, f3]
  case branch => rcases f3 with f3 | f3 <;> simp [decode, decodeBranch, op, f3]
  case jalr =>
    have zero : (funct3 w).toNat = 0 ↔ funct3 w = 0#3 := (BitVec.toNat_eq (y := 0#3)).symm
    simp [decode, decodeJalr, op, zero]
  case ecall => simp [decode, decodeSystem, op]

/-- Settles O1: each word is decoded field by field. -/
theorem specWordsDecodeToTheirInstructions : Obligations.SpecWordsDecodeToTheirInstructions := by
  unfold Obligations.SpecWordsDecodeToTheirInstructions
  decide

end Sys2Proof.Laws

/-! The execution engine family: `exec` inverted whole, with everything a retirement does. An instruction retires from
the state its rule prepared, aborts exactly where its one data access is refused, or waits for input. -/

namespace Sys2Proof.Machine

/-! ### What a retirement of an instruction does -/

/-- The register that a retirement writes back to: the destination, or x10 for ecall with selector 1 (R23, R251). -/
def writeTarget (s : State) (i : Instr) : Option Reg :=
  match i.dest? with
  | some rd => some rd
  | none => if i = .ecall ∧ s.reg 17 = 1#32 then some 10 else none

/-- The instruction sets the PC itself: a branch whose condition holds, jal or jalr (R108). -/
def SetsPc (s : State) (i : Instr) : Prop :=
  Claims.taken s i = true ∨ (∃ rd offset, i = .jal rd offset) ∨ ∃ rd rs1 imm, i = .jalr rd rs1 imm

/-- The annotation of R115, but for the write-back's part, which retirement adds. -/
def ruleNote (s : State) (i : Instr) : Note :=
  { store := Claims.storeNote s i, taken := Claims.taken s i, syscall := Claims.syscallNote s i }

/-- `i` retires in `s`, from the state `s'` that its rule prepared, with the request `out`. -/
structure Retires (i : Instr) (s s' : State) (out : Out) : Prop where
  prepared : Prepared s s'
  admitted : ¬ Claims.RefusedAccess s i
  mem : Claims.storeNote s i = none → s'.mem = s.mem
  inputPos : s'.inputPos = if i = .ecall ∧ s.reg 17 = 1#32 then s.inputPos + 1 else s.inputPos
  output : s'.output = if i = .ecall ∧ s.reg 17 = 2#32 then s.output ++ [(s.reg 10).setWidth 8] else s.output
  target : out.wb.map Prod.fst = writeTarget s i
  next : out.next = s.pc + 4#32 ∨ SetsPc s i
  halt : out.halt = true ↔ i = .ecall ∧ (s.reg 17 = 3#32 ∨ s.reg 17 = 93#32)
  note : out.note = ruleNote s i

/-- The outcomes of an instruction, each with its condition. -/
inductive Effects (i : Instr) (s : State) : StepOutcome → Prop
  | retires (s' : State) (out : Out) (retirement : Retires i s s' out) : Effects i s (.next (s'.retire (encode i) out))
  | aborts (reason : AbortReason) (refused : Claims.RefusedAccess s i) : Effects i s (.next (s.abort reason))
  | waits (ecall : i = .ecall) (awaits : s.awaitsInput = true) : Effects i s (.next s)

/-! ### The parts of a retirement, by the shape of the instruction -/

theorem not_refusedAccess_of_none {s : State} {i : Instr} (noAccess : Claims.dataAccess s i = none) :
    ¬ Claims.RefusedAccess s i := by
  rintro ⟨kind, a, width, access, -⟩
  cases noAccess.symm.trans access

theorem refusedAccess_iff {s : State} {i : Instr} {kind : AccessKind} {a : Word} {width : Width}
    (access : Claims.dataAccess s i = some (kind, a, width)) :
    Claims.RefusedAccess s i ↔ s.admits kind a width = false := by
  refine ⟨?_, fun refused => ⟨kind, a, width, access, refused⟩⟩
  rintro ⟨kind', a', width', access', refused⟩
  cases access.symm.trans access'
  exact refused

theorem not_refusedAccess_of_admits {s : State} {i : Instr} {kind : AccessKind} {a : Word} {width : Width}
    (access : Claims.dataAccess s i = some (kind, a, width)) (admitted : s.admits kind a width = true) :
    ¬ Claims.RefusedAccess s i := by
  rw [refusedAccess_iff access, admitted]
  decide

/-- An instruction other than ecall makes no service call. -/
theorem ruleNote_of_ne_ecall {s : State} {i : Instr} (notEcall : i ≠ .ecall) :
    ruleNote s i = { store := Claims.storeNote s i, taken := Claims.taken s i } := by
  simp [ruleNote, Claims.syscallNote, notEcall]

theorem writeTarget_of_dest {s : State} {i : Instr} {rd : Reg} (dest : i.dest? = some rd) :
    writeTarget s i = some rd := by
  simp [writeTarget, dest]

theorem writeTarget_of_ne_ecall {s : State} {i : Instr} (dest : i.dest? = none) (notEcall : i ≠ .ecall) :
    writeTarget s i = none := by
  simp [writeTarget, dest, notEcall]

/-- An instruction with a destination is no ecall, no store and no branch. -/
theorem of_dest {i : Instr} {rd : Reg} (dest : i.dest? = some rd) (s : State) :
    i ≠ .ecall ∧ Claims.storeNote s i = none ∧ Claims.taken s i = false := by
  cases i with
  | sb | sh | sw | beq | bne | blt | bge | bltu | bgeu | ecall => cases dest
  | _ => exact ⟨nofun, rfl, rfl⟩

/-- An instruction other than ecall retires without a stream's change and without a halt; what is left to say is the
rest. -/
theorem retires_of_ne_ecall {i : Instr} {s s' : State} {out : Out} (notEcall : i ≠ .ecall) (prepared : Prepared s s')
    (admitted : ¬ Claims.RefusedAccess s i) (mem : Claims.storeNote s i = none → s'.mem = s.mem)
    (streams : s'.inputPos = s.inputPos ∧ s'.output = s.output) (target : out.wb.map Prod.fst = writeTarget s i)
    (next : out.next = s.pc + 4#32 ∨ SetsPc s i) (halt : out.halt = false)
    (note : out.note = { store := Claims.storeNote s i, taken := Claims.taken s i }) : Retires i s s' out where
  prepared := prepared
  admitted := admitted
  mem := mem
  inputPos := by simp [notEcall, streams]
  output := by simp [notEcall, streams]
  target := target
  next := next
  halt := by simp [notEcall, halt]
  note := by rw [note, ruleNote_of_ne_ecall notEcall]

/-- The low `n` bits, as the trace's annotation writes them (R115). -/
theorem extractLsb'_zero_eq_setWidth (v : Word) {n : Nat} (h : n ≤ 32) : v.extractLsb' 0 n = v.setWidth n :=
  (BitVec.setWidth_eq_extractLsb' h).symm

/-! ### One lemma for each shared operation -/

theorem effects_complete_dest {i : Instr} {s : State} {rd : Reg} (v : Word) {next : Word} (dest : i.dest? = some rd)
    (admitted : ¬ Claims.RefusedAccess s i) (goes : next = s.pc + 4#32 ∨ SetsPc s i) :
    Effects i s (s.complete i { wb := some (rd, v), next := next }) := by
  obtain ⟨notEcall, noStore, notTaken⟩ := of_dest dest s
  exact .retires s _ (retires_of_ne_ecall notEcall .same admitted (fun _ => rfl) ⟨rfl, rfl⟩
    (writeTarget_of_dest dest).symm goes rfl (by rw [noStore, notTaken]))

theorem effects_completeWriting {i : Instr} {s : State} {rd : Reg} (v : Word) (dest : i.dest? = some rd)
    (noAccess : Claims.dataAccess s i = none) : Effects i s (s.completeWriting i rd v) :=
  effects_complete_dest v dest (not_refusedAccess_of_none noAccess) (.inl rfl)

theorem effects_load {i : Instr} {s : State} {rd : Reg} {a : Word} {width : Width} (v : Word)
    (dest : i.dest? = some rd) (access : Claims.dataAccess s i = some (.read, a, width)) :
    Effects i s (s.load i rd (s.guardRead a width v)) := by
  cases admitted : s.admits .read a width with
  | true =>
    rw [State.guardRead_ok s a width v admitted]
    exact effects_complete_dest v dest (not_refusedAccess_of_admits access admitted) (.inl rfl)
  | false =>
    rw [State.guardRead_error s a width v admitted]
    exact .aborts _ ((refusedAccess_iff access).mpr admitted)

theorem effects_load_map {α : Type} {i : Instr} {s : State} {rd : Reg} {a : Word} {width : Width} (value : α)
    (extend : α → Word) (dest : i.dest? = some rd) (access : Claims.dataAccess s i = some (.read, a, width)) :
    Effects i s (s.load i rd ((s.guardRead a width value).map extend)) := by
  rw [State.map_guardRead]
  exact effects_load _ dest access

theorem effects_store {i : Instr} {s : State} {a : Word} {width : Width} {value : StoredValue} (v : Word)
    (notEcall : i ≠ .ecall) (dest : i.dest? = none) (notTaken : Claims.taken s i = false)
    (stored : Claims.storeNote s i = some (a, value)) (access : Claims.dataAccess s i = some (.write, a, width)) :
    Effects i s (s.store i a value (s.guardWrite a width v)) := by
  cases admitted : s.admits .write a width with
  | true =>
    rw [State.store_of_admits s i a value width v admitted]
    exact .retires _ _ (retires_of_ne_ecall notEcall (.stored a width v)
      (not_refusedAccess_of_admits access admitted) (fun none_ => by cases none_.symm.trans stored) ⟨rfl, rfl⟩
      (writeTarget_of_ne_ecall dest notEcall).symm (.inl rfl) rfl (by rw [stored, notTaken]))
  | false =>
    rw [State.guardWrite_error s a width v admitted]
    exact .aborts _ ((refusedAccess_iff access).mpr admitted)

theorem effects_branch {i : Instr} {s : State} (offset : BitVec 13) {condition : Bool} (notEcall : i ≠ .ecall)
    (dest : i.dest? = none) (noStore : Claims.storeNote s i = none) (noAccess : Claims.dataAccess s i = none)
    (taken : Claims.taken s i = condition) : Effects i s (s.branch i offset condition) := by
  refine .retires s _ (retires_of_ne_ecall notEcall .same (not_refusedAccess_of_none noAccess) (fun _ => rfl) ⟨rfl, rfl⟩
    (writeTarget_of_ne_ecall dest notEcall).symm ?_ rfl (by rw [noStore, taken]))
  cases condition with
  | true => exact .inr (.inl taken)
  | false => exact .inl rfl

theorem not_refusedAccess_ecall (s : State) : ¬ Claims.RefusedAccess s .ecall := not_refusedAccess_of_none rfl

/-- An ecall with a selector other than 1 retires without a write-back. -/
theorem retires_ecall {s s' : State} {out : Out} (notOne : s.reg 17 ≠ 1#32) (prepared : Prepared s s')
    (kept : s'.mem = s.mem ∧ s'.inputPos = s.inputPos)
    (output : s'.output = if s.reg 17 = 2#32 then s.output ++ [(s.reg 10).setWidth 8] else s.output)
    (goesOn : out.wb = none ∧ out.next = s.pc + 4#32)
    (halt : out.halt = true ↔ s.reg 17 = 3#32 ∨ s.reg 17 = 93#32)
    (note : out.note = { syscall := Claims.syscallNote s .ecall }) : Retires .ecall s s' out where
  prepared := prepared
  admitted := not_refusedAccess_ecall s
  mem := fun _ => kept.1
  inputPos := by simp [kept, notOne]
  output := by simp [output]
  target := by simp [goesOn, writeTarget, Instr.dest?, notOne]
  next := .inl goesOn.2
  halt := by simp [halt]
  note := note

theorem effects_ecallRead {s : State} (one : s.reg 17 = 1#32) : Effects .ecall s (ecallRead s) := by
  unfold ecallRead
  cases answer : s.nextInput with
  | none => exact .waits rfl ((State.awaitsInput_iff s).mpr ⟨one, answer⟩)
  | some item =>
    have given : s.input[s.inputPos]? = some item := answer
    exact .retires _ _
      { prepared := .consumed item answer, admitted := not_refusedAccess_ecall s, mem := fun _ => rfl
        inputPos := by simp [one], output := by simp [one], target := by simp [writeTarget, Instr.dest?, one]
        next := .inl rfl, halt := by simp [one]
        note := by simp [ruleNote, Claims.storeNote, Claims.taken, Claims.syscallNote, one, given] }

theorem effects_ecall (s : State) : Effects .ecall s (execEcall s) := by
  unfold execEcall
  split
  case isTrue one => exact effects_ecallRead one
  case isFalse notOne =>
    split
    case isTrue two =>
      exact .retires _ _ (retires_ecall notOne (.wrote _) ⟨rfl, rfl⟩ (by simp [two, extractLsb'_zero_eq_setWidth])
        ⟨rfl, rfl⟩ (by simp [two]) (by simp [Claims.syscallNote, two, extractLsb'_zero_eq_setWidth]))
    case isFalse notTwo =>
      split
      case isTrue halts =>
        exact .retires _ _ (retires_ecall notOne .same ⟨rfl, rfl⟩ (by simp [notTwo]) ⟨rfl, rfl⟩ (by simp [halts])
          (by simp [Claims.syscallNote, notOne, notTwo, halts]))
      case isFalse goesOn =>
        exact .retires _ _ (retires_ecall notOne .same ⟨rfl, rfl⟩ (by simp [notTwo]) ⟨rfl, rfl⟩ (by simp [goesOn])
          (by simp [Claims.syscallNote, notOne, notTwo, goesOn]))

/-- `exec` inverted, with everything a retirement does. -/
theorem exec_effects (i : Instr) (s : State) : Effects i s (exec i s) := by
  cases i with
  | add | sub | sll | slt | sltu | xor | srl | sra | or | and | mul | mulh | div | divu | rem | remu
  | addi | slti | sltiu | xori | ori | andi | slli | srli | srai
  | lui | auipc => exact effects_completeWriting _ rfl rfl
  | lw => exact effects_load _ rfl rfl
  | lb | lh | lbu | lhu => exact effects_load_map _ _ rfl rfl
  | sb | sh =>
    refine effects_store _ nofun rfl rfl ?_ rfl
    rw [extractLsb'_zero_eq_setWidth _ (by decide)]
    rfl
  | sw => exact effects_store _ nofun rfl rfl rfl rfl
  | bne => exact effects_branch _ nofun rfl rfl rfl (decide_not ..)
  | beq | blt | bge | bltu | bgeu => exact effects_branch _ nofun rfl rfl rfl rfl
  | jal rd offset =>
    exact effects_complete_dest _ rfl (not_refusedAccess_of_none rfl) (.inr (.inr (.inl ⟨rd, offset, rfl⟩)))
  | jalr rd rs1 imm =>
    exact effects_complete_dest _ rfl (not_refusedAccess_of_none rfl) (.inr (.inr (.inr ⟨rd, rs1, imm, rfl⟩)))
  | ecall => exact effects_ecall s

end Sys2Proof.Machine

/-! The step of the engine: a step inverted, and from it the statements about refused accesses, the run state, the
count, the PC, the parameters and the invariant (R101 to R118, R320). -/

namespace Sys2Proof.Machine

/-! ### What a step can do -/

/-- What a step that answers `t` did, from Running: abort at a refused access, wait for input, or retire the fetched
word. -/
inductive StepEffects (s : State) : State → Prop
  | aborts (reason : AbortReason)
      (refused : s.admits .read s.pc .word = false ∨
        ∃ w i, s.fetch = .ok w ∧ decode w = .instr i ∧ Claims.RefusedAccess s i) : StepEffects s (s.abort reason)
  | waits (blocked : s.blocked = true) : StepEffects s s
  | retires (w : Word) (i : Instr) (fetched : s.fetch = .ok w) (decoded : decode w = .instr i) (s' : State) (out : Out)
      (retirement : Retires i s s' out) : StepEffects s (s'.retire w out)
  | passes (w : Word) (fetched : s.fetch = .ok w) (decoded : decode w = .unknown) :
      StepEffects s (s.retire w { next := s.pc + 4#32 })

theorem step_of_unknown {s : State} {w : Word} (run : s.run = .running) (fetched : s.fetch = .ok w)
    (decoded : decode w = .unknown) : step s = .next (s.retire w { next := s.pc + 4#32 }) := by
  simp only [step, run, fetched, decoded, execDecoded, execUnknown]

theorem step_of_fetch_error {s : State} {reason : AbortReason} (run : s.run = .running)
    (refused : s.fetch = .error reason) : step s = .next (s.abort reason) := by
  simp only [step, run, refused]

/-- A fetch is refused exactly where the memory collaborator refuses to read a word at the PC (R103). -/
theorem admits_of_fetch_error {s : State} {reason : AbortReason} (refused : s.fetch = .error reason) :
    s.admits .read s.pc .word = false := by
  by_contra admitted
  cases refused.symm.trans (State.guardRead_ok s s.pc .word _ (by simpa using admitted))

theorem running_of_step {s t : State} (stepped : step s = .next t) : s.run = .running := by
  have outcomes := step_outcomes s
  rw [stepped] at outcomes
  cases outcomes with
  | aborts run | retires run => exact run
  | waits blocked =>
    obtain ⟨run, -⟩ := s.blocked_iff.mp blocked
    exact run

theorem blocked_of_ecall {s : State} {w : Word} (run : s.run = .running) (fetched : s.fetch = .ok w)
    (decoded : decode w = .instr .ecall) (awaits : s.awaitsInput = true) : s.blocked = true :=
  s.blocked_iff.mpr ⟨run, decode_ecall decoded ▸ fetched, s.awaitsInput_iff.mp awaits⟩

/-- `step` inverted, with everything a retirement does. -/
theorem step_effects {s t : State} (stepped : step s = .next t) : StepEffects s t := by
  have run := running_of_step stepped
  cases fetched : s.fetch with
  | error reason =>
    cases (step_of_fetch_error run fetched).symm.trans stepped
    exact .aborts reason (.inl (admits_of_fetch_error fetched))
  | ok w =>
    cases decoded : decode w with
    | unknown =>
      cases (step_of_unknown run fetched decoded).symm.trans stepped
      exact .passes w fetched decoded
    | instr i =>
      have effects := exec_effects i s
      rw [← step_of_decode run fetched decoded, stepped] at effects
      cases effects with
      | retires s' out retirement =>
        obtain ⟨word, -⟩ := Laws.encodes_of_decode decoded
        exact word.symm ▸ .retires w i fetched decoded s' out retirement
      | aborts reason refused => exact .aborts reason (.inr ⟨w, i, fetched, decoded, refused⟩)
      | waits ecall awaits => exact .waits (blocked_of_ecall run fetched (ecall ▸ decoded) awaits)

/-- A blocked engine waits: its step answers the same state (R118, R252). -/
theorem step_of_blocked {s : State} (blocked : s.blocked = true) : step s = .next s := by
  obtain ⟨run, fetched, selector, noAnswer⟩ := s.blocked_iff.mp blocked
  have read : exec .ecall s = ecallRead s := if_pos selector
  rw [step_of_decode run fetched (i := .ecall) rfl, read, ecallRead, noAnswer]

/-! ### The run state -/

theorem retires_run {i : Instr} {s s' : State} {w : Word} {out : Out} (retirement : Retires i s s' out) :
    (s'.retire w out).run = if out.halt then .halted else s.run := by
  obtain ⟨-, -, run, -⟩ := retirement.prepared.unchanged
  rw [State.retire_run, run]

theorem retires_run_ne_aborted {i : Instr} {s s' : State} {w : Word} {out : Out} (retirement : Retires i s s' out)
    (run : s.run = .running) : (s'.retire w out).run ≠ .aborted := by
  rw [retires_run retirement, run]
  cases out.halt <;> decide

theorem retires_count {i : Instr} {s s' : State} {w : Word} {out : Out} (retirement : Retires i s s' out) :
    (s'.retire w out).count = s.count + 1 := by
  obtain ⟨-, -, -, count, -⟩ := retirement.prepared.unchanged
  rw [State.retire_count, count]

/-- A refused data access aborts the instruction, and nothing else changes (R112). -/
theorem exec_of_refusedAccess {s : State} {i : Instr} (refused : Claims.RefusedAccess s i) :
    exec i s = .next (Claims.aborted s) := by
  have effects := exec_effects i s
  generalize exec i s = answer at effects ⊢
  cases effects with
  | retires s' out retirement => exact absurd refused retirement.admitted
  | aborts => rfl
  | waits ecall => exact absurd (ecall ▸ refused) (not_refusedAccess_ecall s)

/-- From Running, an instruction aborts at a refused data access alone. -/
theorem refusedAccess_of_aborted {i : Instr} {s t : State} (run : s.run = .running) (executed : exec i s = .next t)
    (aborted : t.run = .aborted) : Claims.RefusedAccess s i := by
  have effects := exec_effects i s
  rw [executed] at effects
  cases effects with
  | retires s' out retirement => exact absurd aborted (retires_run_ne_aborted retirement run)
  | aborts reason refused => exact refused
  | waits => cases run.symm.trans aborted

/-- Settles O34: an instruction aborts at a refused data access, and in no other case of `exec` inverted. -/
theorem onlyLoadsAndStoresAbortAfterTheFetch : Obligations.OnlyLoadsAndStoresAbortAfterTheFetch := fun _ _ run =>
  ⟨⟨fun ⟨_, executed, aborted⟩ => refusedAccess_of_aborted run executed aborted,
      fun refused => ⟨_, exec_of_refusedAccess refused, rfl⟩⟩,
    exec_of_refusedAccess⟩

/-- A step that enters Aborted changes the run state alone. -/
theorem eq_aborted_of_step {s t : State} (stepped : step s = .next t) (aborted : t.run = .aborted) :
    t = Claims.aborted s := by
  have run := running_of_step stepped
  cases step_effects stepped with
  | aborts => rfl
  | waits => cases run.symm.trans aborted
  | retires w i fetched decoded s' out retirement => exact absurd aborted (retires_run_ne_aborted retirement run)
  | passes => cases run.symm.trans aborted

theorem step_ne_next_of_aborted {s : State} (aborted : s.run = .aborted) (t : State) : step s ≠ .next t :=
  fun stepped => by cases aborted.symm.trans (running_of_step stepped)

/-- A refused fetch aborts the step (R103, R112). -/
theorem step_of_refused_fetch {s : State} (run : s.run = .running) (refused : s.admits .read s.pc .word = false) :
    step s = .next (Claims.aborted s) :=
  step_of_fetch_error run (State.guardRead_error s s.pc .word _ refused)

/-- Settles O33: the two refusals abort the step, and a step into Aborted changes nothing else. -/
theorem refusedAccessAbortsAndCommitsNothing : Obligations.RefusedAccessAbortsAndCommitsNothing :=
  ⟨fun _ => step_of_refused_fetch,
    fun _ _ _ run fetched decoded refused =>
      (step_of_decode run fetched decoded).trans (exec_of_refusedAccess refused),
    fun _ _ => eq_aborted_of_step,
    fun _ aborted => ⟨by simp [runResult, aborted], step_ne_next_of_aborted aborted⟩⟩

/-- A step that enters Halted is the retirement of an ecall with a halting selector (R110, R254). -/
theorem halts_of_step {s t : State} (stepped : step s = .next t) (halted : t.run = .halted) :
    s.fetch = .ok 0x00000073#32 ∧ (s.reg 17 = 3#32 ∨ s.reg 17 = 93#32) ∧ t.count = s.count + 1 := by
  have run := running_of_step stepped
  cases step_effects stepped with
  | aborts => cases halted
  | waits => cases run.symm.trans halted
  | passes => cases run.symm.trans halted
  | retires w i fetched decoded s' out retirement =>
    have halt : out.halt = true := by
      by_contra off
      rw [retires_run retirement, if_neg off, run] at halted
      cases halted
    obtain ⟨rfl, selector⟩ := retirement.halt.mp halt
    exact ⟨decode_ecall decoded ▸ fetched, selector, retires_count retirement⟩

theorem refused_of_step {s t : State} (stepped : step s = .next t) (aborted : t.run = .aborted) :
    s.admits .read s.pc .word = false ∨ ∃ w i, s.fetch = .ok w ∧ decode w = .instr i ∧ Claims.RefusedAccess s i := by
  have run := running_of_step stepped
  cases step_effects stepped with
  | aborts reason refused => exact refused
  | waits => cases run.symm.trans aborted
  | retires w i fetched decoded s' out retirement => exact absurd aborted (retires_run_ne_aborted retirement run)
  | passes => cases run.symm.trans aborted

/-- In Running a step answers a next state: nothing faults there, and nothing is left without a meaning (R101). -/
theorem step_of_running {s : State} (run : s.run = .running) : ∃ t, step s = .next t := by
  have outcomes := step_outcomes s
  generalize step s = answer at outcomes ⊢
  cases outcomes with
  | halted other | aborted other => cases run.symm.trans other
  | aborts | waits | retires => exact ⟨_, rfl⟩

/-- Every register reads 0 at the start of a run (R320). -/
theorem boot_reg (entry : Word) (image : Memory) (deny : List DenyRule) (input : List InputItem) (eofValue : Word)
    (traceOn : Bool) (r : Reg) : (State.boot entry image deny input eofValue traceOn).reg r = 0#32 := by
  simp [State.reg]

/-- Settles O35: the start by its fields, the two changes from a step inverted. -/
theorem runStateChangesInExactlyTwoWays : Obligations.RunStateChangesInExactlyTwoWays := by
  refine ⟨?_, fun s => ⟨fun ⟨_, stepped⟩ => running_of_step stepped, step_of_running⟩, fun _ _ => halts_of_step,
    fun _ _ => refused_of_step⟩
  rintro entry image deny input eofValue traceOn _ rfl
  exact ⟨rfl, rfl, fun r => boot_reg ..⟩

/-! ### Count and PC -/

/-- Settles O36: of a step's four cases, the two retirements add 1, and the other two change nothing or only the run
state. -/
theorem countGrowsByOneAtEachRetirement : Obligations.CountGrowsByOneAtEachRetirement := by
  intro s t stepped
  have run := running_of_step stepped
  have waits : s.blocked = true → t = s := fun blocked => by
    cases (step_of_blocked blocked).symm.trans stepped
    rfl
  cases step_effects stepped with
  | aborts reason refused => exact ⟨fun notAborted => absurd rfl notAborted, waits, fun _ => rfl, .inr ⟨rfl, .inr rfl⟩⟩
  | waits blocked =>
    have notWaiting : s.blocked ≠ false := by rw [blocked]; decide
    exact ⟨fun _ notBlocked => absurd notBlocked notWaiting, waits, fun _ => rfl, .inr ⟨rfl, .inl rfl⟩⟩
  | retires w i fetched decoded s' out retirement =>
    have count := retires_count (w := w) retirement
    exact ⟨fun _ _ => count, waits, fun aborted => absurd aborted (retires_run_ne_aborted retirement run), .inl count⟩
  | passes => exact ⟨fun _ _ => rfl, waits, fun aborted => (by cases run.symm.trans aborted), .inl rfl⟩

/-- Settles O37: a retirement goes to pc + 4 unless its instruction sets the PC itself. -/
theorem onlyBranchesAndJumpsSetThePc : Obligations.OnlyBranchesAndJumpsSetThePc := by
  intro s t stepped
  cases step_effects stepped with
  | aborts | waits => exact ⟨fun _ => rfl, fun grown => absurd grown (Nat.succ_ne_self _).symm⟩
  | retires w i fetched decoded s' out retirement =>
    refine ⟨fun same => absurd ((retires_count retirement).symm.trans same) (Nat.succ_ne_self _), fun _ elsewhere => ?_⟩
    exact ⟨w, i, fetched, decoded, retirement.next.resolve_left elsewhere⟩
  | passes => exact ⟨fun same => absurd same (Nat.succ_ne_self _), fun _ elsewhere => absurd rfl elsewhere⟩

/-- Settles O54: only in Halted there is a result, and a step into Halted retires. -/
theorem runResultIsTheCountAtHalt : Obligations.RunResultIsTheCountAtHalt := by
  refine ⟨fun s => by simp [runResult], fun s t stepped halted => ?_⟩
  obtain ⟨-, -, count⟩ := halts_of_step stepped halted
  rw [runResult, if_pos halted, count]

/-- Settles O55: the blocked condition by its parts; every other step changes the run state or the count. -/
theorem stepWaitsExactlyWhenBlocked : Obligations.StepWaitsExactlyWhenBlocked := by
  refine ⟨fun s => ?_, fun s => ⟨fun stepped => ?_, step_of_blocked⟩⟩
  · rw [State.blocked_iff, State.nextInput, List.getElem?_eq_none_iff]
  · by_contra notBlocked
    have run := running_of_step stepped
    obtain ⟨grows, -⟩ := countGrowsByOneAtEachRetirement s s stepped
    have count := grows (by rw [run]; decide) (by simpa using notBlocked)
    omega

/-! ### Parameters, invariant and start -/

/-- Settles O43: no update of the state touches a parameter. -/
theorem stepsKeepTheParameters : Obligations.StepsKeepTheParameters := by
  intro s t stepped
  cases step_effects stepped with
  | aborts | waits | passes => exact ⟨rfl, rfl, rfl, rfl⟩
  | retires w i fetched decoded s' out retirement =>
    obtain ⟨-, -, -, -, deny, input, eofValue, traceOn, -⟩ := retirement.prepared.unchanged
    exact ⟨deny, input, eofValue, traceOn⟩

/-- A retirement keeps the invariant: the next record bears the next number. -/
theorem State.Inv.retire {s : State} (inv : s.Inv) (w : Word) (out : Out) : (s.retire w out).Inv where
  memoryCanonical := inv.memoryCanonical
  zeroCell := (writeback_zeroCell _ _).trans inv.zeroCell
  inputConsumed := inv.inputConsumed
  traceNumbered on := by
    have on' : s.traceOn = true := on
    simp [on', inv.traceNumbered on', traceRecord, List.range_succ]
  traceAbsent off := by
    have off' : s.traceOn = false := off
    simp [off', inv.traceAbsent off']

theorem State.Inv.abort {s : State} (inv : s.Inv) (reason : AbortReason) : (s.abort reason).Inv :=
  ⟨inv.memoryCanonical, inv.zeroCell, inv.inputConsumed, inv.traceNumbered, inv.traceAbsent⟩

/-- The store, read or output before a retirement keeps the invariant. -/
theorem State.Inv.prepared {s s' : State} (inv : s.Inv) (from_ : Prepared s s') : s'.Inv := by
  obtain ⟨regs, -, -, count, -, -, -, traceOn, trace⟩ := from_.unchanged
  exact ⟨from_.wf_mem inv.memoryCanonical, regs ▸ inv.zeroCell, from_.inputPos_le inv.inputConsumed,
    by rw [traceOn, trace, count]; exact inv.traceNumbered, by rw [traceOn, trace]; exact inv.traceAbsent⟩

/-- Settles O46: each case of a step keeps the invariant. -/
theorem everyStepKeepsTheInvariant : Obligations.EveryStepKeepsTheInvariant := by
  intro s t inv stepped
  have outcomes := step_outcomes s
  rw [stepped] at outcomes
  cases outcomes with
  | aborts run reason => exact inv.abort reason
  | waits => exact inv
  | retires run s' w out from_ => exact (inv.prepared from_).retire w out

/-- Settles O45: nothing is consumed and nothing is traced at the start. -/
theorem invariantHoldsAtReset : Obligations.InvariantHoldsAtReset :=
  have boot : ∀ entry image deny input eofValue traceOn, Memory.wf image = true →
      (State.boot entry image deny input eofValue traceOn).Inv := fun _ _ _ _ _ _ wf =>
    ⟨wf, by simp, Nat.zero_le _, fun _ => rfl, fun _ => rfl⟩
  ⟨boot _ _ _ _ _ _ rfl, boot⟩

/-- Settles O44: every field of the start, and the start that reset is. -/
theorem bootStateIsAsTheSpecSays : Obligations.BootStateIsAsTheSpecSays := by
  refine ⟨?_, _, _, _, _, _, _, rfl⟩
  rintro entry image deny input eofValue traceOn _ rfl
  exact ⟨fun r => boot_reg .., rfl, rfl, rfl, rfl, rfl, rfl, rfl⟩

end Sys2Proof.Machine

/-! The frames over all instructions, the trace record of a retirement, and the services of ecall (R23, R47, R114,
R115, R250 to R255). -/

namespace Sys2Proof.Machine

/-! ### Registers, memory and streams -/

theorem State.reg_of_regs_eq {s t : State} (regs : t.regs = s.regs) (r : Reg) : t.reg r = s.reg r := by
  rw [State.reg, State.reg, regs]

theorem prepared_reg {s s' : State} (prepared : Prepared s s') (r : Reg) : s'.reg r = s.reg r := by
  obtain ⟨regs, -⟩ := prepared.unchanged
  exact State.reg_of_regs_eq regs r

/-- A retirement writes no register but its target (R23, R107). -/
theorem retires_reg {i : Instr} {s s' : State} {out : Out} (w : Word) {r : Reg} (retirement : Retires i s s' out)
    (other : writeTarget s i ≠ some r) : (s'.retire w out).reg r = s.reg r := by
  rw [← retirement.target] at other
  cases requested : out.wb with
  | none => rw [State.retire_reg_none _ _ _ requested, prepared_reg retirement.prepared]
  | some wb =>
    have apart : ¬ (r = wb.1 ∧ r ≠ 0) := fun same => other (by rw [requested, same.1]; rfl)
    rw [State.retire_reg_some _ _ _ wb.1 wb.2 requested, if_neg apart, prepared_reg retirement.prepared]

theorem writeTarget_ne {s : State} {i : Instr} {r : Reg} (dest : i.dest? ≠ some r)
    (notRead : ¬ (i = .ecall ∧ s.reg 17 = 1#32 ∧ r = 10)) : writeTarget s i ≠ some r := by
  unfold writeTarget
  cases named : i.dest? with
  | some rd => simpa [named] using dest
  | none =>
    show (if i = .ecall ∧ s.reg 17 = 1#32 then some 10 else none) ≠ some r
    split
    · next reads => exact fun ten => notRead ⟨reads.1, reads.2, (Option.some.inj ten).symm⟩
    · nofun

/-- Settles O38: an abort and a wait write no register, and a retirement only its target. -/
theorem onlyTheNamedRegisterIsWritten : Obligations.OnlyTheNamedRegisterIsWritten := by
  intro i s t r executed dest notRead
  have effects := exec_effects i s
  rw [executed] at effects
  cases effects with
  | retires s' out retirement => exact retires_reg _ retirement (writeTarget_ne dest notRead)
  | aborts | waits => rfl

theorem storeNote_of_not_store {i : Instr} (s : State)
    (notStore : ∀ rs1 rs2 imm, i ∉ [.sb rs1 rs2 imm, .sh rs1 rs2 imm, .sw rs1 rs2 imm]) :
    Claims.storeNote s i = none := by
  cases i with
  | sb rs1 rs2 imm | sh rs1 rs2 imm | sw rs1 rs2 imm => exact absurd (by simp) (notStore rs1 rs2 imm)
  | _ => rfl

/-- Settles O41: an instruction with no store to annotate retires with the memory it found. -/
theorem onlyStoresChangeMemory : Obligations.OnlyStoresChangeMemory := by
  intro i s t executed notStore a
  have effects := exec_effects i s
  rw [executed] at effects
  cases effects with
  | retires s' out retirement =>
    rw [State.retire_mem, retirement.mem (storeNote_of_not_store s notStore)]
  | aborts | waits => rfl

/-- Settles O42: a retirement moves the input position for a selector-1 ecall alone, and the output for a selector-2
ecall alone. -/
theorem onlyEcallMovesTheStreams : Obligations.OnlyEcallMovesTheStreams := by
  intro i s t executed
  have effects := exec_effects i s
  rw [executed] at effects
  cases effects with
  | retires s' out retirement =>
    rw [State.retire_inputPos, State.retire_output, retirement.inputPos, retirement.output]
    constructor
    · split
      · next reads => exact fun _ => ⟨reads.1, reads.2, rfl⟩
      · exact fun moved => absurd rfl moved
    · split
      · next writes => exact fun _ => ⟨writes.1, writes.2, by simp⟩
      · exact fun moved => absurd rfl moved
  | aborts | waits => exact ⟨fun moved => absurd rfl moved, fun moved => absurd rfl moved⟩

/-! ### The trace record of a retirement (R114, R115) -/

/-- The write-back annotation, from the target of the retirement. -/
theorem writebackNote_eq (s t : State) (i : Instr) : Claims.writebackNote s t i =
    (writeTarget s i).bind fun rd => if rd = 0 then none else some (rd, t.reg rd) := by
  unfold Claims.writebackNote writeTarget
  cases i.dest? with
  | some rd => rfl
  | none =>
    show (if i = .ecall ∧ s.reg 17 = 1#32 then _ else _) = Option.bind (if i = .ecall ∧ s.reg 17 = 1#32 then _ else _) _
    split <;> rfl

/-- The write-back that commits is the annotation read off the state after (R115). -/
theorem committed_eq_writebackNote {i : Instr} {s s' : State} {out : Out} (w : Word)
    (retirement : Retires i s s' out) : committed out.wb = Claims.writebackNote s (s'.retire w out) i := by
  rw [writebackNote_eq, ← retirement.target]
  cases requested : out.wb with
  | none => rfl
  | some wb =>
    obtain ⟨rd, v⟩ := wb
    show (if rd = 0 then none else some (rd, v)) = if rd = 0 then none else some (rd, (s'.retire w out).reg rd)
    split
    · rfl
    · next nonzero => rw [State.retire_reg_some _ _ _ rd v requested, if_pos ⟨rfl, nonzero⟩]

/-- A retirement adds the record of R114, with the annotation of what it did. -/
theorem traces_of_retires {i : Instr} {s s' : State} {w : Word} {out : Out} (decoded : decode w = .instr i)
    (retirement : Retires i s s' out) :
    Claims.Traces s (s'.retire w out) w (Claims.note s (s'.retire w out) (decode w)) := by
  obtain ⟨-, pc, -, count, -, -, -, traceOn, trace⟩ := retirement.prepared.unchanged
  have note : { out.note with writeback := committed out.wb } = Claims.note s (s'.retire w out) (.instr i) := by
    rw [committed_eq_writebackNote w retirement, retirement.note]
    rfl
  rw [Claims.Traces, State.retire_trace, traceRecord, traceOn, trace, count, pc, note, decoded]

/-- Settles O47: a retirement adds its record, and an abort and a wait leave the trace alone. -/
theorem eachRetirementAddsOneTraceRecord : Obligations.EachRetirementAddsOneTraceRecord := by
  intro s t stepped
  cases step_effects stepped with
  | aborts | waits => exact ⟨fun grown => absurd grown (Nat.succ_ne_self _).symm, fun _ => rfl⟩
  | retires w i fetched decoded s' out retirement =>
    exact ⟨fun _ => ⟨w, fetched, traces_of_retires decoded retirement⟩,
      fun same => absurd ((retires_count retirement).symm.trans same) (Nat.succ_ne_self _)⟩
  | passes w fetched decoded =>
    exact ⟨fun _ => ⟨w, fetched, decoded ▸ rfl⟩, fun same => absurd same (Nat.succ_ne_self _)⟩

/-! ### Unknown words and the step's dispatch -/

/-- Settles O31: a running step with an admitted fetch is the execution of what the word decodes to. -/
theorem stepRunsTheDecodedInstruction : Obligations.StepRunsTheDecodedInstruction := fun _ _ run fetched =>
  ⟨fun _ => step_of_decode run fetched, step_of_unknown run fetched⟩

/-- Settles O32: the retirement of an Unknown word asks for nothing but pc + 4. -/
theorem unknownWordsRetireAsNoOps : Obligations.UnknownWordsRetireAsNoOps := fun s _ run fetched decoded =>
  ⟨_, step_of_unknown run fetched decoded, ⟨rfl, rfl, rfl, rfl, rfl, rfl⟩, run, s.retire_reg_none _ _ rfl, fun _ => rfl,
    ⟨rfl, rfl⟩, rfl, congrArg decodedText decoded⟩

/-! ### The services of ecall (R250 to R255) -/

theorem exec_ecall_of_read {s : State} {item : InputItem} (selector : s.reg 17 = 1#32)
    (answer : s.nextInput = some item) : exec .ecall s = s.consumeInput.complete .ecall
      { wb := some (10, inputValue s.eofValue item), next := s.pc + 4#32
        note := { syscall := some (.read item) } } := by
  have read : exec .ecall s = ecallRead s := if_pos selector
  rw [read, ecallRead, answer]

theorem exec_ecall_of_write {s : State} (selector : s.reg 17 = 2#32) : exec .ecall s = ecallWrite s := by
  simp [exec, execEcall, selector]

theorem exec_ecall_of_halt {s : State} (selector : s.reg 17 = 3#32 ∨ s.reg 17 = 93#32) :
    exec .ecall s = ecallHalt s := by
  rcases selector with selector | selector <;> simp [exec, execEcall, selector]

theorem exec_ecall_of_other {s : State} (others : (s.reg 17).toNat ∉ [1, 2, 3, 93]) :
    exec .ecall s = ecallNothing s := by
  have apart {k : Nat} (listed : (BitVec.ofNat 32 k).toNat ∈ [1, 2, 3, 93]) : s.reg 17 ≠ BitVec.ofNat 32 k :=
    fun selector => others (selector ▸ listed)
  have none_ : ¬ (s.reg 17 = 3#32 ∨ s.reg 17 = 93#32) := not_or.mpr ⟨apart (by decide), apart (by decide)⟩
  exact (if_neg (apart (by decide))).trans ((if_neg (apart (by decide))).trans (if_neg none_))

/-- Settles O26: the retirement writes what the answer delivers to x10, from the state with the answer consumed. -/
theorem ecallReadDeliversTheNextAnswer : Obligations.EcallReadDeliversTheNextAnswer := fun s item selector answer =>
  ⟨_, inputValue s.eofValue item, exec_ecall_of_read selector answer, ⟨rfl, rfl, rfl, rfl, rfl, rfl⟩, rfl,
    State.retire_reg_some _ _ _ 10 _ rfl, fun c byte => by rw [byte]; simp [inputValue]; omega,
    fun eof => by rw [eof]; rfl, fun _ => rfl, rfl, rfl, rfl⟩

/-- Settles O27: with every answer consumed the engine is blocked, and the answer appended is the next one. -/
theorem ecallReadWaitsForAnAnswer : Obligations.EcallReadWaitsForAnAnswer := by
  intro s item run fetched selector consumed
  have noAnswer : s.nextInput = none := List.getElem?_eq_none (Nat.le_of_eq consumed.symm)
  have answered : State.nextInput { s with input := s.input ++ [item] } = some item := by
    simp [State.nextInput, consumed]
  refine ⟨step_of_blocked (s.blocked_iff.mpr ⟨run, fetched, selector, noAnswer⟩), ?_⟩
  have stepped := (step_of_decode (s := { s with input := s.input ++ [item] }) (i := .ecall) run fetched rfl).trans
    (exec_ecall_of_read selector answered)
  exact ⟨_, stepped, rfl, rfl, by simp [consumed]⟩

/-- Settles O28: the retirement writes no register, from the state with the low byte of x10 appended. -/
theorem ecallWriteAppendsTheLowByte : Obligations.EcallWriteAppendsTheLowByte := fun s selector =>
  ⟨_, _, exec_ecall_of_write selector, by simp, rfl, ⟨rfl, rfl, rfl, rfl, rfl, rfl⟩, rfl,
    State.retire_reg_none _ _ _ rfl, fun _ => rfl, rfl, rfl⟩

/-- Settles O29: the retirement of a halting ecall, and of `exec` inverted no other case leads into Halted. -/
theorem ecallHaltRetiresAndHalts : Obligations.EcallHaltRetiresAndHalts := by
  refine ⟨fun s selector => ⟨_, exec_ecall_of_halt selector, rfl, ⟨rfl, rfl, rfl, rfl, rfl, rfl⟩,
    s.retire_reg_none _ _ rfl, fun _ => rfl, ⟨rfl, rfl⟩, rfl⟩, fun i s t executed notHalted halted => ?_⟩
  have effects := exec_effects i s
  rw [executed] at effects
  cases effects with
  | retires s' out retirement =>
    refine retirement.halt.mp (by_contra fun off => ?_)
    rw [retires_run retirement, if_neg off] at halted
    exact notHalted halted
  | aborts => cases halted
  | waits => exact absurd halted notHalted

/-- Settles O30: no other selector is compared for, and the retirement asks for nothing but pc + 4. -/
theorem ecallOtherSelectorsDoNothing : Obligations.EcallOtherSelectorsDoNothing := fun s others =>
  ⟨_, exec_ecall_of_other others, ⟨rfl, rfl, rfl, rfl, rfl, rfl⟩, rfl, s.retire_reg_none _ _ rfl, fun _ => rfl,
    ⟨rfl, rfl⟩, rfl⟩

end Sys2Proof.Machine

/-! Noninterference: `exec` from two states that differ in one register alone, which the instruction does not read,
ends in two states that differ in that register alone (R24). -/

namespace Sys2Proof.Machine

/-- `t'` is `t` but for what register `r` reads. -/
def SameBut (r : Reg) (t t' : State) : Prop :=
  ∃ regs, t' = { t with regs := regs } ∧ ∀ q, q ≠ r → t'.reg q = t.reg q

/-- Both answer a next state, and the two are the same but for register `r`. -/
def AgreeBut (r : Reg) (answer answer' : StepOutcome) : Prop :=
  ∃ t t', answer = .next t ∧ answer' = .next t' ∧ SameBut r t t'

/-! ### The updates keep the agreement -/

section

variable {r : Reg} {s s' : State}

theorem SameBut.withMem (same : SameBut r s s') (m : Memory) : SameBut r (s.withMem m) (s'.withMem m) := by
  obtain ⟨regs, rfl, kept⟩ := same
  exact ⟨regs, rfl, kept⟩

theorem SameBut.consumeInput (same : SameBut r s s') : SameBut r s.consumeInput s'.consumeInput := by
  obtain ⟨regs, rfl, kept⟩ := same
  exact ⟨regs, rfl, kept⟩

theorem SameBut.outputWrite (same : SameBut r s s') (b : Byte) : SameBut r (s.outputWrite b) (s'.outputWrite b) := by
  obtain ⟨regs, rfl, kept⟩ := same
  exact ⟨regs, rfl, kept⟩

theorem SameBut.abort (same : SameBut r s s') (reason : AbortReason) :
    SameBut r (s.abort reason) (s'.abort reason) := by
  obtain ⟨regs, rfl, kept⟩ := same
  exact ⟨regs, rfl, kept⟩

theorem SameBut.retire (same : SameBut r s s') (w : Word) (out : Out) :
    SameBut r (s.retire w out) (s'.retire w out) := by
  obtain ⟨regs, rfl, kept⟩ := same
  refine ⟨writeback regs out.wb, rfl, fun q other => ?_⟩
  cases requested : out.wb with
  | none => rw [State.retire_reg_none _ _ _ requested, State.retire_reg_none _ _ _ requested, kept q other]
  | some wb =>
    rw [State.retire_reg_some _ _ _ wb.1 wb.2 requested, State.retire_reg_some _ _ _ wb.1 wb.2 requested, kept q other]

/-! ### The shared operations keep the agreement -/

theorem SameBut.complete (same : SameBut r s s') (i : Instr) (out : Out) :
    AgreeBut r (s.complete i out) (s'.complete i out) :=
  ⟨_, _, rfl, rfl, same.retire _ out⟩

theorem SameBut.pc (same : SameBut r s s') : s'.pc = s.pc := by
  obtain ⟨regs, rfl, -⟩ := same
  rfl

theorem SameBut.completeWriting (same : SameBut r s s') (i : Instr) (rd : Reg) {v v' : Word} (value : v' = v) :
    AgreeBut r (s.completeWriting i rd v) (s'.completeWriting i rd v') := by
  rw [value, State.completeWriting, State.completeWriting, same.pc]
  exact same.complete i _

theorem SameBut.branch (same : SameBut r s s') (i : Instr) (offset : BitVec 13) {condition condition' : Bool}
    (value : condition' = condition) :
    AgreeBut r (s.branch i offset condition) (s'.branch i offset condition') := by
  rw [value, State.branch, State.branch, branchTarget, branchTarget, same.pc]
  exact same.complete i _

theorem SameBut.load (same : SameBut r s s') (i : Instr) (rd : Reg) {access access' : Except AbortReason Word}
    (value : access' = access) : AgreeBut r (s.load i rd access) (s'.load i rd access') := by
  rw [value]
  cases access with
  | ok v => exact same.completeWriting i rd rfl
  | error reason => exact ⟨_, _, rfl, rfl, same.abort reason⟩

theorem SameBut.admits (same : SameBut r s s') (kind : AccessKind) (a : Word) (width : Width) :
    s'.admits kind a width = s.admits kind a width := by
  obtain ⟨regs, rfl, -⟩ := same
  rfl

theorem SameBut.mem (same : SameBut r s s') : s'.mem = s.mem := by
  obtain ⟨regs, rfl, -⟩ := same
  rfl

theorem SameBut.guardRead {α : Type} (same : SameBut r s s') (a : Word) (width : Width) (value : α) :
    s'.guardRead a width value = s.guardRead a width value := by
  rw [State.guardRead, State.guardRead, same.admits]

theorem SameBut.store (same : SameBut r s s') (i : Instr) {a a' : Word} {value value' : StoredValue} (width : Width)
    {v v' : Word} (address : a' = a) (stored : value' = value) (word : v' = v) :
    AgreeBut r (s.store i a value (s.guardWrite a width v)) (s'.store i a' value' (s'.guardWrite a' width v')) := by
  subst address stored word
  rw [State.guardWrite, State.guardWrite, same.admits, same.mem]
  cases s.admits .write a' width with
  | true =>
    show AgreeBut r ((s.withMem _).complete i _) ((s'.withMem _).complete i _)
    rw [same.pc]
    exact (same.withMem _).complete i _
  | false => exact ⟨_, _, rfl, rfl, same.abort _⟩

theorem SameBut.ecallRead (same : SameBut r s s') : AgreeBut r (ecallRead s) (ecallRead s') := by
  have input : s'.nextInput = s.nextInput ∧ s'.eofValue = s.eofValue := by
    obtain ⟨regs, rfl, -⟩ := same
    exact ⟨rfl, rfl⟩
  unfold Machine.ecallRead
  rw [input.1, input.2, same.pc]
  cases s.nextInput with
  | none => exact ⟨_, _, rfl, rfl, same⟩
  | some item => exact same.consumeInput.complete .ecall _

theorem SameBut.ecallWrite (same : SameBut r s s') (character : s'.reg 10 = s.reg 10) :
    AgreeBut r (ecallWrite s) (ecallWrite s') := by
  rw [Machine.ecallWrite, Machine.ecallWrite, character, same.pc]
  exact (same.outputWrite _).complete .ecall _

theorem SameBut.execEcall (same : SameBut r s s') (selector : s'.reg 17 = s.reg 17)
    (character : s.reg 17 = 2#32 → s'.reg 10 = s.reg 10) : AgreeBut r (execEcall s) (execEcall s') := by
  unfold Machine.execEcall
  rw [selector]
  split
  · exact same.ecallRead
  · split
    · next two => exact same.ecallWrite (character two)
    · split
      · rw [ecallHalt, ecallHalt, same.pc]
        exact same.complete .ecall _
      · rw [ecallNothing, ecallNothing, same.pc]
        exact same.complete .ecall _

/-! ### Every instruction keeps the agreement -/

theorem SameBut.exec {i : Instr} (same : SameBut r s s') (kept : ∀ q ∈ Claims.sources s i, s'.reg q = s.reg q) :
    AgreeBut r (exec i s) (exec i s') := by
  cases i with
  | add | sub | sll | slt | sltu | xor | srl | sra | or | and | mul | mulh | div | divu | rem | remu =>
    simp only [Claims.sources, List.forall_mem_cons] at kept
    exact same.completeWriting _ _ (by rw [kept.1, kept.2.1])
  | addi | slti | sltiu | xori | ori | andi | slli | srli | srai =>
    simp only [Claims.sources, List.forall_mem_cons] at kept
    exact same.completeWriting _ _ (by rw [kept.1])
  | lb | lh | lw | lbu | lhu =>
    simp only [Claims.sources, List.forall_mem_cons] at kept
    refine same.load _ _ ?_
    rw [effectiveAddress, effectiveAddress, kept.1]
    simp only [State.readByte, State.readHalf, State.readWord, same.guardRead, same.mem]
  | sb | sh | sw =>
    simp only [Claims.sources, List.forall_mem_cons] at kept
    refine same.store _ _ ?_ ?_ ?_
    · rw [effectiveAddress, effectiveAddress, kept.1]
    · rw [kept.2.1]
    · rw [kept.2.1]
  | beq | bne | blt | bge | bltu | bgeu =>
    simp only [Claims.sources, List.forall_mem_cons] at kept
    exact same.branch _ _ (by rw [kept.1, kept.2.1])
  | lui => exact same.completeWriting _ _ rfl
  | auipc => exact same.completeWriting _ _ (by rw [same.pc])
  | jal rd offset =>
    show AgreeBut r (execJal rd offset s) (execJal rd offset s')
    rw [execJal, execJal, jalTarget, jalTarget, same.pc]
    exact same.complete _ _
  | jalr rd rs1 imm =>
    simp only [Claims.sources, List.forall_mem_cons] at kept
    show AgreeBut r (execJalr rd rs1 imm s) (execJalr rd rs1 imm s')
    rw [execJalr, execJalr, jalrTarget, jalrTarget, same.pc, kept.1]
    exact same.complete _ _
  | ecall =>
    have first : 17 ∈ Claims.sources s .ecall := by
      by_cases two : s.reg 17 = 2#32 <;> simp [Claims.sources, two]
    exact same.execEcall (kept 17 first) fun two => kept 10 (by simp [Claims.sources, two])

end

theorem sameBut_set (s : State) (r : Reg) (v : Word) : SameBut r s { s with regs := s.regs.set r v } := by
  refine ⟨_, rfl, fun q other => ?_⟩
  have apart : r.val ≠ q.val := fun same => other (Fin.ext same.symm)
  simp [State.reg, apart]

/-- Settles O40: every instruction keeps two states the same but for a register that it does not read. -/
theorem instructionsReadOnlyTheirSources : Obligations.InstructionsReadOnlyTheirSources := by
  intro i s r v unread
  have same := sameBut_set s r v
  obtain ⟨t, t', answer, answer', regs, rfl, kept⟩ := same.exec (i := i) fun q read => by
    obtain ⟨regs, -, kept⟩ := same
    exact kept q fun equal => unread (equal ▸ read)
  exact ⟨t, _, answer, answer', kept, rfl⟩

end Sys2Proof.Machine

/-! The rest of the integer families: sums, differences and shifts in integer arithmetic, signed division, sltiu, the
immediate shifts, and auipc (R130 to R138, R150 to R156, R170 to R179, R232). -/

namespace Sys2Proof.Machine

/-! ### Sums, differences and shifts -/

theorem add_eq_ofNat (a b : Word) : a + b = BitVec.ofNat 32 (a.toNat + b.toNat) := by
  rw [BitVec.ofNat_add, BitVec.ofNat_toNat, BitVec.ofNat_toNat, BitVec.setWidth_eq, BitVec.setWidth_eq]

theorem sub_eq_ofInt (a b : Word) : a - b = BitVec.ofInt 32 ((a.toNat : Int) - b.toNat) := by
  apply BitVec.eq_of_toNat_eq
  rw [BitVec.toNat_sub, BitVec.toNat_ofInt]
  omega

theorem shiftLeft_eq_ofNat (a : Word) (n : Nat) : a <<< n = BitVec.ofNat 32 (a.toNat * 2 ^ n) := by
  apply BitVec.eq_of_toNat_eq
  rw [BitVec.toNat_shiftLeft, Nat.shiftLeft_eq, BitVec.toNat_ofNat]

theorem ushiftRight_eq_ofNat (a : Word) (n : Nat) : a >>> n = BitVec.ofNat 32 (a.toNat / 2 ^ n) := by
  apply BitVec.eq_of_toNat_eq
  rw [BitVec.toNat_ushiftRight, Nat.shiftRight_eq_div_pow, BitVec.toNat_ofNat,
    Nat.mod_eq_of_lt (Nat.lt_of_le_of_lt (Nat.div_le_self _ _) a.isLt)]

theorem sshiftRight_eq_ofInt (a : Word) (n : Nat) : a.sshiftRight n = BitVec.ofInt 32 (a.toInt / 2 ^ n) := by
  rw [BitVec.sshiftRight_eq, Int.shiftRight_eq_div_pow, Nat.cast_pow, Nat.cast_ofNat]

/-- A register shift amount is the register's number modulo 32 (R130). -/
theorem shiftAmount_eq (v : Word) : shiftAmount v = v.toNat % 32 := by
  simp [shiftAmount]

/-- An immediate shift amount is the field's number modulo 32: the sign bits that extension adds lie above (R170). -/
theorem immShiftAmount_eq (imm : BitVec 12) : immShiftAmount imm = imm.toNat % 32 := by
  have mask : ∀ x : Nat, x &&& 31 = x % 32 := fun x => Nat.and_two_pow_sub_one_eq_mod x 5
  rw [immShiftAmount, sext12, BitVec.toNat_and, BitVec.toNat_signExtend]
  show (_ + _) &&& 31 = _
  rw [mask, BitVec.toNat_setWidth]
  split <;> omega

/-- Settles O8: each row is an entry of R71's table, and each result is the stated one of integer arithmetic. -/
theorem sumsDifferencesAndShiftsWriteTheirResult : Obligations.SumsDifferencesAndShiftsWriteTheirResult := by
  refine ⟨registerRow_of_exec ?add fun s rd rs1 rs2 => congrArg (s.completeWriting _ rd) (add_eq_ofNat _ _),
    registerRow_of_exec ?sub fun s rd rs1 rs2 => congrArg (s.completeWriting _ rd) (sub_eq_ofInt _ _),
    registerRow_of_exec ?sll fun s rd rs1 rs2 => congrArg (s.completeWriting _ rd) ?sllValue,
    registerRow_of_exec ?srl fun s rd rs1 rs2 => congrArg (s.completeWriting _ rd) ?srlValue,
    registerRow_of_exec ?sra fun s rd rs1 rs2 => congrArg (s.completeWriting _ rd) ?sraValue⟩
  case sllValue => rw [shiftLeft_eq_ofNat, shiftAmount_eq]
  case srlValue => rw [ushiftRight_eq_ofNat, shiftAmount_eq]
  case sraValue => rw [sshiftRight_eq_ofInt, shiftAmount_eq]
  all_goals
    intro w h7 h3
    simp [decodeOp, h7, h3]

/-! ### Signed division -/

theorem divOverflows_iff (a b : Word) : divOverflows a b = true ↔ a = 0x80000000#32 ∧ b = 0xFFFFFFFF#32 := by
  simp [divOverflows]

/-- Settles O10: each row is an entry of R71's table, and the overflow is the one pair of operands named. -/
theorem signedDivisionWritesItsResult : Obligations.SignedDivisionWritesItsResult := by
  refine ⟨registerRow_of_exec ?div fun s rd rs1 rs2 => congrArg (s.completeWriting _ rd) ?divValue,
    registerRow_of_exec ?rem fun s rd rs1 rs2 => congrArg (s.completeWriting _ rd) ?remValue⟩
  case divValue => simp only [divSigned, divOverflows_iff]
  case remValue => simp only [remSigned, divOverflows_iff]
  all_goals
    intro w h7 h3
    simp [decodeOp, h7, h3]

/-- Away from the zero divisor and the overflow, the quotient fits and is the one truncated toward zero (R153). -/
theorem toInt_divSigned {a b : Word} (nonzero : b ≠ 0#32) (fits : ¬ (a = 0x80000000#32 ∧ b = 0xFFFFFFFF#32)) :
    (divSigned a b).toInt = a.toInt.tdiv b.toInt := by
  rw [divSigned, if_neg nonzero, if_neg (mt (divOverflows_iff a b).mp fits), BitVec.toInt_ofInt,
    ← BitVec.toInt_sdiv, BitVec.toInt_sdiv_of_ne_or_ne _ _ (not_and_or.mp fits)]

/-- With a nonzero divisor the remainder is that of the quotient truncated toward zero, the overflow included (R155). -/
theorem toInt_remSigned {a b : Word} (nonzero : b ≠ 0#32) : (remSigned a b).toInt = a.toInt.tmod b.toInt := by
  rw [remSigned, if_neg nonzero]
  split
  · next overflows =>
    obtain ⟨rfl, rfl⟩ := (divOverflows_iff a b).mp overflows
    decide
  · rw [Int.mul_comm, ← Int.tmod_def, ← BitVec.toInt_srem, BitVec.ofInt_toInt]

theorem abs_tmod_lt (a : Int) {b : Int} (nonzero : b ≠ 0) : |a.tmod b| < |b| := by
  rw [Int.abs_eq_natAbs, Int.abs_eq_natAbs, Int.natAbs_tmod]
  exact_mod_cast Nat.mod_lt _ (Int.natAbs_pos.mpr nonzero)

theorem tmod_nonpos {a : Int} (b : Int) (nonpos : a ≤ 0) : a.tmod b ≤ 0 := by
  have := Int.tmod_nonneg b (Int.neg_nonneg_of_nonpos nonpos)
  rw [Int.neg_tmod] at this
  omega

/-- With a nonzero divisor, quotient and remainder are those of the natural numbers (R154, R156). -/
theorem toNat_divUnsigned {a b : Word} (nonzero : b ≠ 0#32) : (divUnsigned a b).toNat = a.toNat / b.toNat := by
  rw [divUnsigned, if_neg nonzero, BitVec.toNat_ofNat,
    Nat.mod_eq_of_lt (Nat.lt_of_le_of_lt (Nat.div_le_self _ _) a.isLt)]

theorem toNat_remUnsigned {a b : Word} (nonzero : b ≠ 0#32) : (remUnsigned a b).toNat = a.toNat % b.toNat := by
  rw [remUnsigned, if_neg nonzero, BitVec.toNat_ofNat,
    Nat.mod_eq_of_lt (Nat.lt_of_le_of_lt (Nat.mod_le _ _) a.isLt)]

/-- An instruction whose one effect is the write-back of `v` leaves `v` in a destination other than register 0. -/
theorem result_of_completeWriting {i : Instr} {s : State} {rd : Reg} {v : Word} (nonzero : rd ≠ 0)
    (executed : exec i s = s.completeWriting i rd v) : ∃ t, exec i s = .next t ∧ t.reg rd = v :=
  ⟨_, executed, (State.retire_reg_some _ _ _ rd v rfl rd).trans (if_pos ⟨rfl, nonzero⟩)⟩

/-- Settles O11: the four results are the integers' quotients and remainders, whose laws the library has. -/
theorem quotientAndRemainderRecomposeTheDividend : Obligations.QuotientAndRemainderRecomposeTheDividend := by
  intro s rd rs1 rs2 nonzeroRd nonzero
  obtain ⟨q, div, quotient⟩ := result_of_completeWriting (i := .div rd rs1 rs2) (s := s) nonzeroRd rfl
  obtain ⟨r, rem, remainder⟩ := result_of_completeWriting (i := .rem rd rs1 rs2) (s := s) nonzeroRd rfl
  obtain ⟨qu, divu, quotientU⟩ := result_of_completeWriting (i := .divu rd rs1 rs2) (s := s) nonzeroRd rfl
  obtain ⟨ru, remu, remainderU⟩ := result_of_completeWriting (i := .remu rd rs1 rs2) (s := s) nonzeroRd rfl
  refine ⟨q, r, qu, ru, div, rem, divu, remu, ?_⟩
  rw [quotient, remainder, quotientU, remainderU, toInt_remSigned nonzero, toNat_divUnsigned nonzero,
    toNat_remUnsigned nonzero]
  have nonzeroInt : (s.reg rs2).toInt ≠ 0 := fun zero => nonzero (BitVec.eq_of_toInt_eq zero)
  have nonzeroNat : (s.reg rs2).toNat ≠ 0 := fun zero => nonzero (BitVec.eq_of_toNat_eq zero)
  refine ⟨fun fits => ?_, abs_tmod_lt _ nonzeroInt, Int.tmod_nonneg _, tmod_nonpos _, (Nat.div_add_mod' _ _).symm,
    Nat.mod_lt _ (Nat.pos_of_ne_zero nonzeroNat)⟩
  rw [toInt_divSigned nonzero fits, Int.tdiv_mul_add_tmod]

/-! ### sltiu, the immediate shifts and auipc -/

/-- Settles O13: the row is an entry of R73's table, and the extended immediate is compared as it stands. -/
theorem sltiuComparesWithTheExtendedImmediate : Obligations.SltiuComparesWithTheExtendedImmediate :=
  immediateRow_of_exec (fun w h3 _ => by simp [decodeOpImm, h3])
    fun s rd rs1 imm => congrArg (s.completeWriting _ rd) (oneIf_lessUnsigned _ (sext12 imm))

/-- Settles O14: each row is an entry of R73's table, where bit 10 tells the right shifts apart, and the amount is the
field modulo 32. -/
theorem immediateShiftsIgnoreTheUpperBits : Obligations.ImmediateShiftsIgnoreTheUpperBits := by
  refine ⟨immediateRow_of_exec ?slli fun s rd rs1 imm => congrArg (s.completeWriting _ rd) ?slliValue,
    immediateRow_of_exec ?srli fun s rd rs1 imm => congrArg (s.completeWriting _ rd) ?srliValue,
    immediateRow_of_exec ?srai fun s rd rs1 imm => congrArg (s.completeWriting _ rd) ?sraiValue⟩
  case slliValue => rw [shiftLeft_eq_ofNat, immShiftAmount_eq]
  case srliValue => rw [ushiftRight_eq_ofNat, immShiftAmount_eq]
  case sraiValue => rw [sshiftRight_eq_ofInt, immShiftAmount_eq]
  case slli =>
    intro w h3 _
    simp [decodeOpImm, h3]
  case srli | srai =>
    intro w h3 bit
    have selects : arithmeticBit (rawI w) = _ := bit
    simp [decodeOpImm, h3, selects]

/-- The words of opcode 0x17 are auipc, with the fields they were built from (R81). -/
theorem decode_encodeU_auipc (rd : Reg) (imm20 : BitVec 20) :
    decode (encodeU 0x17#7 rd imm20) = .instr (.auipc rd imm20) :=
  Laws.decode_encode (i := .auipc rd imm20) rfl

/-- Adding the placed field is the sum of the numbers, modulo 2^32 (R232). -/
theorem add_upper20 (a : Word) (imm20 : BitVec 20) :
    a + upper20 imm20 = BitVec.ofNat 32 (a.toNat + imm20.toNat * 4096) := by
  rw [upper20_eq_ofNat, BitVec.ofNat_add, BitVec.ofNat_toNat, BitVec.setWidth_eq]

/-- Settles O24: opcode 0x17 is auipc, whatever the fields, and auipc completes writing the sum. -/
theorem auipcWritesItsResult : Obligations.AuipcWritesItsResult := fun s rd imm20 =>
  have executed : exec (.auipc rd imm20) s =
      s.completeWriting (.auipc rd imm20) rd (BitVec.ofNat 32 (s.pc.toNat + imm20.toNat * 4096)) :=
    congrArg (s.completeWriting _ rd) (add_upper20 s.pc imm20)
  ⟨decode_encodeU_auipc rd imm20, completesWriting_of_complete executed⟩

end Sys2Proof.Machine

/-! The memory family: a little-endian read as its bytes appended, the rows of the loads and the stores, a load after
a store, and what the canonical form can hold (R40 to R47, R190 to R198). -/

namespace Sys2Proof.Machine

/-! ### Values and reads as bytes appended (R42) -/

theorem halfBytes_append (v : Word) : v.extractLsb' 8 8 ++ v.extractLsb' 0 8 = v.setWidth 16 :=
  (BitVec.extractLsb'_append_extractLsb'_eq_extractLsb' (x := v) (start₁ := 0) (len₁ := 8) (len₂ := 8) rfl).trans
    (extractLsb'_zero_eq_setWidth v (by decide))

theorem wordBytes_append (v : Word) :
    v.extractLsb' 24 8 ++ v.extractLsb' 16 8 ++ v.extractLsb' 8 8 ++ v.extractLsb' 0 8 = v := by
  rw [BitVec.extractLsb'_append_extractLsb'_eq_extractLsb' (start₁ := 16) (len₁ := 8) (len₂ := 8) rfl,
    BitVec.extractLsb'_append_extractLsb'_eq_extractLsb' (start₁ := 8) (len₁ := 8) (len₂ := 16) rfl,
    BitVec.extractLsb'_append_extractLsb'_eq_extractLsb' (start₁ := 0) (len₁ := 8) (len₂ := 24) rfl]
  exact BitVec.extractLsb'_eq_self

theorem bytes_of_half (b1 b0 : Byte) :
    ((b1 ++ b0).setWidth 32).extractLsb' 0 8 = b0 ∧ ((b1 ++ b0).setWidth 32).extractLsb' 8 8 = b1 := by
  rw [BitVec.extractLsb'_setWidth_of_le (by decide), BitVec.extractLsb'_setWidth_of_le (by decide)]
  exact ⟨BitVec.extractLsb'_append_eq_right, BitVec.extractLsb'_append_eq_left⟩

/-- Below the top byte, a byte of `hi ++ lo` is one of `hi`, eight bits further down. -/
theorem extractLsb'_append_byte {n : Nat} (hi : BitVec n) (lo : Byte) (start : Nat) :
    (hi ++ lo).extractLsb' (start + 8) 8 = hi.extractLsb' start 8 :=
  BitVec.extractLsb'_append_eq_of_le (Nat.le_add_left 8 start)

theorem bytes_of_word (b3 b2 b1 b0 : Byte) :
    (b3 ++ b2 ++ b1 ++ b0).extractLsb' 0 8 = b0 ∧ (b3 ++ b2 ++ b1 ++ b0).extractLsb' 8 8 = b1 ∧
      (b3 ++ b2 ++ b1 ++ b0).extractLsb' 16 8 = b2 ∧ (b3 ++ b2 ++ b1 ++ b0).extractLsb' 24 8 = b3 := by
  refine ⟨BitVec.extractLsb'_append_eq_right, (extractLsb'_append_byte _ b0 0).trans BitVec.extractLsb'_append_eq_right,
    (extractLsb'_append_byte _ b0 8).trans ((extractLsb'_append_byte _ b1 0).trans BitVec.extractLsb'_append_eq_right),
    (extractLsb'_append_byte _ b0 16).trans ((extractLsb'_append_byte _ b1 8).trans BitVec.extractLsb'_append_eq_left)⟩

/-- The half at an address: two bytes, the lowest least significant (R42). -/
def Memory.halfAt (m : Memory) (a : Word) : Half := Memory.byteAt m (a + 1#32) ++ Memory.byteAt m a

/-- The word at an address: four bytes, the lowest least significant (R42). -/
def Memory.wordAt (m : Memory) (a : Word) : Word :=
  Memory.byteAt m (a + 3#32) ++ Memory.byteAt m (a + 2#32) ++ Memory.byteAt m (a + 1#32) ++ Memory.byteAt m a

theorem Memory.readLE_one (m : Memory) (a : Word) : (Memory.readLE m a 1).setWidth 8 = Memory.byteAt m a := by
  have byte := Memory.extractLsb'_readLE m a 1 0 (by decide) (by decide)
  rwa [BitVec.add_zero, extractLsb'_zero_eq_setWidth _ (by decide)] at byte

theorem Memory.readLE_two (m : Memory) (a : Word) :
    (Memory.readLE m a 2).setWidth 16 = Memory.halfAt m a := by
  have byte (j : Nat) (hj : j < 2) := Memory.extractLsb'_readLE m a 2 j hj (by decide)
  have byte0 := byte 0 (by decide)
  rw [BitVec.add_zero] at byte0
  rw [Memory.halfAt, ← halfBytes_append, ← byte0, ← byte 1 (by decide)]

theorem Memory.readLE_four (m : Memory) (a : Word) : Memory.readLE m a 4 = Memory.wordAt m a := by
  have byte (j : Nat) (hj : j < 4) := Memory.extractLsb'_readLE m a 4 j hj (by decide)
  have byte0 := byte 0 (by decide)
  rw [BitVec.add_zero] at byte0
  rw [Memory.wordAt, ← byte0, ← byte 1 (by decide), ← byte 2 (by decide), ← byte 3 (by decide)]
  exact (wordBytes_append _).symm

/-! ### The loads -/

/-- A load row, from the entry of R74 for its funct3 and the bytes its instruction reads. -/
theorem loadRow_of_exec {f3 : BitVec 3} {i : Reg → Reg → BitVec 12 → Instr} {width : Width}
    {value : Memory → Word → Word}
    (decoded : ∀ w, funct3 w = f3 → decodeLoad w = .instr (i (rdOf w) (rs1Of w) (rawI w)))
    (executed : ∀ (s : State) (rd rs1 : Reg) (imm : BitVec 12), exec (i rd rs1 imm) s = s.load (i rd rs1 imm) rd
      (s.guardRead (effectiveAddress s rs1 imm) width (value s.mem (effectiveAddress s rs1 imm)))) :
    Claims.LoadRow f3 i width value := by
  refine fun s rd rs1 imm => ⟨?decodes, add_sext12 _ imm, fun admitted => ?admitted, fun refused => ?refused⟩
  case decodes =>
    have load : decode (encodeI f3 0x03#7 rd rs1 imm) = decodeLoad (encodeI f3 0x03#7 rd rs1 imm) := by simp [decode]
    rw [load, decoded _ (Laws.funct3_encodeI ..), Laws.rdOf_encodeI, Laws.rs1Of_encodeI, Laws.rawI_encodeI]
  case admitted =>
    refine completesWriting_of_complete ((executed s rd rs1 imm).trans ?_)
    rw [State.guardRead_ok _ _ _ _ admitted]
    rfl
  case refused => rw [executed, State.guardRead_error _ _ _ _ refused]; rfl

theorem exec_lb (s : State) (rd rs1 : Reg) (imm : BitVec 12) : exec (.lb rd rs1 imm) s = s.load (.lb rd rs1 imm) rd
    (s.guardRead (effectiveAddress s rs1 imm) .byte
      ((Memory.byteAt s.mem (effectiveAddress s rs1 imm)).signExtend 32)) := by
  rw [← Memory.readLE_one, ← State.map_guardRead s _ _ _ (BitVec.signExtend 32)]
  rfl

theorem exec_lbu (s : State) (rd rs1 : Reg) (imm : BitVec 12) : exec (.lbu rd rs1 imm) s = s.load (.lbu rd rs1 imm) rd
    (s.guardRead (effectiveAddress s rs1 imm) .byte
      ((Memory.byteAt s.mem (effectiveAddress s rs1 imm)).setWidth 32)) := by
  rw [← Memory.readLE_one, ← State.map_guardRead s _ _ _ (BitVec.setWidth 32)]
  rfl

theorem exec_lh (s : State) (rd rs1 : Reg) (imm : BitVec 12) : exec (.lh rd rs1 imm) s = s.load (.lh rd rs1 imm) rd
    (s.guardRead (effectiveAddress s rs1 imm) .half
      ((Memory.halfAt s.mem (effectiveAddress s rs1 imm)).signExtend 32)) := by
  rw [← Memory.readLE_two, ← State.map_guardRead s _ _ _ (BitVec.signExtend 32)]
  rfl

theorem exec_lhu (s : State) (rd rs1 : Reg) (imm : BitVec 12) : exec (.lhu rd rs1 imm) s = s.load (.lhu rd rs1 imm) rd
    (s.guardRead (effectiveAddress s rs1 imm) .half
      ((Memory.halfAt s.mem (effectiveAddress s rs1 imm)).setWidth 32)) := by
  rw [← Memory.readLE_two, ← State.map_guardRead s _ _ _ (BitVec.setWidth 32)]
  rfl

theorem exec_lw (s : State) (rd rs1 : Reg) (imm : BitVec 12) : exec (.lw rd rs1 imm) s = s.load (.lw rd rs1 imm) rd
    (s.guardRead (effectiveAddress s rs1 imm) .word (Memory.wordAt s.mem (effectiveAddress s rs1 imm))) := by
  rw [← Memory.readLE_four]
  rfl

/-- Settles O15: each row is an entry of R74's table, and its read is the bytes from the address up. -/
theorem loadsWriteTheBytesAtTheirAddress : Obligations.LoadsWriteTheBytesAtTheirAddress := by
  refine ⟨loadRow_of_exec ?lb exec_lb, loadRow_of_exec ?lh exec_lh, loadRow_of_exec ?lw exec_lw,
    loadRow_of_exec ?lbu exec_lbu, loadRow_of_exec ?lhu exec_lhu⟩
  all_goals
    intro w h3
    simp [decodeLoad, h3]

/-! ### The stores -/

theorem exec_sb (s : State) (rs1 rs2 : Reg) (imm : BitVec 12) : exec (.sb rs1 rs2 imm) s =
    s.store (.sb rs1 rs2 imm) (effectiveAddress s rs1 imm) (.byte ((s.reg rs2).extractLsb' 0 8))
      (s.guardWrite (effectiveAddress s rs1 imm) .byte (((s.reg rs2).extractLsb' 0 8).setWidth 32)) := rfl

theorem exec_sh (s : State) (rs1 rs2 : Reg) (imm : BitVec 12) : exec (.sh rs1 rs2 imm) s =
    s.store (.sh rs1 rs2 imm) (effectiveAddress s rs1 imm) (.half ((s.reg rs2).extractLsb' 0 16))
      (s.guardWrite (effectiveAddress s rs1 imm) .half (((s.reg rs2).extractLsb' 0 16).setWidth 32)) := rfl

theorem exec_sw (s : State) (rs1 rs2 : Reg) (imm : BitVec 12) : exec (.sw rs1 rs2 imm) s =
    s.store (.sw rs1 rs2 imm) (effectiveAddress s rs1 imm) (.word (s.reg rs2))
      (s.guardWrite (effectiveAddress s rs1 imm) .word (s.reg rs2)) := rfl

/-- A store row, from the entry of R75 for its funct3 and the word its instruction cuts from `rs2`. -/
theorem storeRow_of_exec {f3 : BitVec 3} {i : Reg → Reg → BitVec 12 → Instr} {width : Width} (cut : Word → Word)
    (value : Word → StoredValue)
    (decoded : ∀ w, funct3 w = f3 → decodeStore w = .instr (i (rs1Of w) (rs2Of w) (rawS w)))
    (executed : ∀ s rs1 rs2 imm, exec (i rs1 rs2 imm) s = s.store (i rs1 rs2 imm) (effectiveAddress s rs1 imm)
      (value (s.reg rs2)) (s.guardWrite (effectiveAddress s rs1 imm) width (cut (s.reg rs2))))
    (cut_bytes : ∀ v, ∀ k < width.bytes, (cut v).extractLsb' (8 * k) 8 = v.extractLsb' (8 * k) 8) :
    Claims.StoreRow f3 i width width.bytes := by
  refine fun s rs1 rs2 imm => ⟨?decodes, add_sext12 _ imm, fun admitted wf => ?admitted, fun refused => ?refused⟩
  case decodes =>
    have store : decode (encodeS f3 0x23#7 rs1 rs2 imm) = decodeStore (encodeS f3 0x23#7 rs1 rs2 imm) := by
      simp [decode]
    rw [store, decoded _ (Laws.funct3_encodeS ..), Laws.rs1Of_encodeS, Laws.rs2Of_encodeS, Laws.rawS_encodeS]
  case admitted =>
    refine ⟨_, (executed s rs1 rs2 imm).trans (State.store_of_admits s _ _ _ _ _ admitted),
      s.afterStore_advances _ _ _ _ _, rfl, s.afterStore_registersKept _ _ _ _ _, ⟨rfl, rfl⟩, fun k hk => ?_,
      fun a outside => Memory.byteAt_writeLE_outside _ _ _ _ a outside⟩
    rw [State.afterStore_mem, Memory.byteAt_writeLE_inside _ _ _ _ k wf hk width.bytes_le_four, cut_bytes _ k hk]
  case refused => rw [executed, State.guardWrite_error _ _ _ _ refused]; rfl

/-- Settles O16: each row is an entry of R75's table, and its write holds the low bytes of `rs2`. -/
theorem storesChangeExactlyTheirBytes : Obligations.StoresChangeExactlyTheirBytes := by
  refine ⟨storeRow_of_exec (fun v => (v.extractLsb' 0 8).setWidth 32) (fun v => .byte (v.extractLsb' 0 8)) ?sb exec_sb
      fun v k (hk : k < 1) => extractLsb'_byte_of_low v 8 k (by omega) (by omega),
    storeRow_of_exec (fun v => (v.extractLsb' 0 16).setWidth 32) (fun v => .half (v.extractLsb' 0 16)) ?sh exec_sh
      fun v k (hk : k < 2) => extractLsb'_byte_of_low v 16 k (by omega) (by omega),
    storeRow_of_exec id .word ?sw exec_sw fun _ _ _ => rfl⟩
  all_goals
    intro w h3
    simp [decodeStore, h3]

/-! ### A load after a store -/

/-- A load of what a store left, at the same address and with both accesses admitted, delivers the value read from the
memory written. -/
theorem load_after_store {s : State} {store load : Instr} {rd base : Reg} {disp : BitVec 12} {ea : Word} {width : Width}
    {stored : StoredValue} {v : Word} {value : Memory → Word → Word} (nonzero : rd ≠ 0)
    (address : effectiveAddress s base disp = ea) (writable : s.admits .write ea width = true)
    (readable : s.admits .read ea width = true)
    (stores : exec store s = s.store store ea stored (s.guardWrite ea width v))
    (loads : ∀ t, exec load t = t.load load rd (t.guardRead (effectiveAddress t base disp) width
      (value t.mem (effectiveAddress t base disp)))) :
    ∃ t u, exec store s = .next t ∧ exec load t = .next u ∧
      u.reg rd = value (Memory.writeLE s.mem ea width.bytes v) ea := by
  have address' : effectiveAddress (s.afterStore store ea stored width v) base disp = ea := by
    rw [← address, effectiveAddress, s.afterStore_registersKept]
    rfl
  have readable' := (State.admits_congr (s.afterStore_deny store ea stored width v) .read ea width).trans readable
  have loaded := loads (s.afterStore store ea stored width v)
  rw [address', State.guardRead_ok _ _ _ _ readable'] at loaded
  exact ⟨_, _, stores.trans (State.store_of_admits s _ _ _ _ _ writable), loaded,
    (State.retire_reg_some _ _ _ rd _ rfl rd).trans (if_pos ⟨rfl, nonzero⟩)⟩

/-- Byte `k` of a write of at most four bytes, at its address `c` (R41). -/
theorem Memory.byteAt_writeLE (m : Memory) (a : Word) {n : Nat} (v : Word) (wf : Memory.wf m = true) (hn : n ≤ 4)
    (k : Nat) (hk : k < n) {c : Word} (address : c = a + BitVec.ofNat 32 k) :
    Memory.byteAt (Memory.writeLE m a n v) c = v.extractLsb' (8 * k) 8 :=
  address ▸ Memory.byteAt_writeLE_inside m a n v k wf hk hn

/-- The byte at the address of a write is the low one. -/
theorem Memory.byteAt_writeLE_first (m : Memory) (a : Word) {n : Nat} (v : Word) (wf : Memory.wf m = true)
    (pos : 0 < n) (hn : n ≤ 4) : Memory.byteAt (Memory.writeLE m a n v) a = v.extractLsb' 0 8 :=
  Memory.byteAt_writeLE m a v wf hn 0 pos (BitVec.add_zero a).symm

/-- A word written is the word there. -/
theorem Memory.wordAt_writeLE (m : Memory) (a v : Word) (wf : Memory.wf m = true) :
    Memory.wordAt (Memory.writeLE m a 4 v) a = v := by
  have byte (k : Nat) (hk : k < 4) := Memory.byteAt_writeLE_inside m a 4 v k wf hk (by decide)
  rw [Memory.wordAt, byte 3 (by decide), byte 2 (by decide), byte 1 (by decide),
    Memory.byteAt_writeLE_first m a v wf (by decide) (by decide)]
  exact wordBytes_append v

/-- A half written is the half there. -/
theorem Memory.halfAt_writeLE (m : Memory) (a v : Word) (wf : Memory.wf m = true) :
    Memory.halfAt (Memory.writeLE m a 2 v) a = v.setWidth 16 := by
  rw [Memory.halfAt, Memory.byteAt_writeLE m a v wf (by decide) 1 (by decide) rfl,
    Memory.byteAt_writeLE_first m a v wf (by decide) (by decide)]
  exact halfBytes_append v

/-- A byte written is the byte there. -/
theorem Memory.byteAt_writeLE_one (m : Memory) (a v : Word) (wf : Memory.wf m = true) :
    Memory.byteAt (Memory.writeLE m a 1 v) a = v.setWidth 8 :=
  (Memory.byteAt_writeLE_first m a v wf (by decide) (by decide)).trans (extractLsb'_zero_eq_setWidth v (by decide))

/-- Cutting a word to its low `n` bits, zero-extended, is a mask (E4, E5 of 95_test_vectors.md). -/
theorem setWidth_extractLsb'_eq_and (v : Word) (n : Nat) (hn : n ≤ 32) :
    (v.extractLsb' 0 n).setWidth 32 = v &&& BitVec.ofNat 32 (2 ^ n - 1) := by
  have fits : 2 ^ n ≤ 2 ^ 32 := Nat.pow_le_pow_right (by decide) hn
  have pos : 0 < 2 ^ n := Nat.two_pow_pos n
  apply BitVec.eq_of_toNat_eq
  rw [extractLsb'_zero_eq_setWidth v hn, BitVec.toNat_setWidth, BitVec.toNat_setWidth, BitVec.toNat_and,
    BitVec.toNat_ofNat, Nat.mod_eq_of_lt (a := 2 ^ n - 1) (by omega), Nat.and_two_pow_sub_one_eq_mod,
    Nat.mod_eq_of_lt (Nat.lt_of_lt_of_le (Nat.mod_lt _ pos) fits)]

/-- Settles O17: the load reads the memory that the store wrote. -/
theorem storeThenLoadGivesTheValueBack : Obligations.StoreThenLoadGivesTheValueBack := by
  intro s rs1 rs2 rd base imm disp nonzero wf address
  refine ⟨fun writable readable => ?word, fun writable readable => ?half, fun writable readable => ?byte⟩
  case word =>
    obtain ⟨t, u, stored, loaded, value⟩ := load_after_store (value := Memory.wordAt) nonzero address writable readable
      (exec_sw s rs1 rs2 imm) fun t => exec_lw t rd base disp
    exact ⟨t, u, stored, loaded, value.trans (Memory.wordAt_writeLE _ _ _ wf)⟩
  case half =>
    obtain ⟨t, u, stored, loaded, value⟩ := load_after_store (value := fun m a => (Memory.halfAt m a).setWidth 32)
      nonzero address writable readable (exec_sh s rs1 rs2 imm) fun t => exec_lhu t rd base disp
    refine ⟨t, u, stored, loaded, value.trans ?_⟩
    show (Memory.halfAt (Memory.writeLE _ _ 2 _) _).setWidth 32 = _
    rw [Memory.halfAt_writeLE _ _ _ wf, BitVec.setWidth_setWidth_of_le _ (by decide : 16 ≤ 32), BitVec.setWidth_eq]
    exact setWidth_extractLsb'_eq_and _ 16 (by decide)
  case byte =>
    obtain ⟨t, u, stored, loaded, value⟩ := load_after_store (value := fun m a => (Memory.byteAt m a).setWidth 32)
      nonzero address writable readable (exec_sb s rs1 rs2 imm) fun t => exec_lbu t rd base disp
    refine ⟨t, u, stored, loaded, value.trans ?_⟩
    show (Memory.byteAt (Memory.writeLE _ _ 1 _) _).setWidth 32 = _
    rw [Memory.byteAt_writeLE_one _ _ _ wf, BitVec.setWidth_setWidth_of_le _ (by decide : 8 ≤ 32), BitVec.setWidth_eq]
    exact setWidth_extractLsb'_eq_and _ 8 (by decide)

/-- Settles O18: reads are bytes appended, and a write's bytes are those of its value; the wrapping word is a read at
0xFFFFFFFE. -/
theorem accessesAreLittleEndian : Obligations.AccessesAreLittleEndian := by
  intro s a
  have word (a : Word) (admitted : s.admits .read a .word = true) : s.readWord a = .ok (Memory.wordAt s.mem a) :=
    (State.guardRead_ok _ _ _ _ admitted).trans (congrArg _ (Memory.readLE_four ..))
  refine ⟨fun admitted => ?_, word a, word s.pc, fun b0 b1 wf admitted => ?half, fun b0 b1 b2 b3 wf admitted => ?word,
    word 0xFFFFFFFE#32⟩
  · exact (State.guardRead_ok _ _ _ _ admitted).trans (congrArg _ (Memory.readLE_two ..))
  case half =>
    obtain ⟨byte0, byte1⟩ := bytes_of_half b1 b0
    exact ⟨_, State.guardWrite_ok _ _ _ _ admitted,
      (Memory.byteAt_writeLE_first _ _ _ wf (by decide) (by decide)).trans byte0,
      (Memory.byteAt_writeLE _ _ _ wf (by decide) 1 (by decide) rfl).trans byte1⟩
  case word =>
    obtain ⟨byte0, byte1, byte2, byte3⟩ := bytes_of_word b3 b2 b1 b0
    exact ⟨_, State.guardWrite_ok _ _ _ _ admitted,
      (Memory.byteAt_writeLE_first _ _ _ wf (by decide) (by decide)).trans byte0,
      (Memory.byteAt_writeLE _ _ _ wf (by decide) 1 (by decide) rfl).trans byte1,
      (Memory.byteAt_writeLE _ _ _ wf (by decide) 2 (by decide) rfl).trans byte2,
      (Memory.byteAt_writeLE _ _ _ wf (by decide) 3 (by decide) rfl).trans byte3⟩

/-! ### The placed word (log entry 9) -/

/-- No rule left after the placing refuses the fetch. -/
theorem withFetchWord_admits (s : State) (nbits w : Nat) :
    (s.withFetchWord nbits w).admits .read s.pc .word = true := by
  simp only [State.admits, State.withFetchWord, List.all_eq_true, List.mem_filter]
  exact fun _ kept => kept.2

theorem fetch_withFetchWord {s : State} (w : Word) (wf : Memory.wf s.mem = true) :
    (s.withFetchWord 32 w.toNat).fetch = .ok w := by
  have placed : BitVec.ofNat 32 (w.toNat % 2 ^ 32) = w := by
    rw [Nat.mod_eq_of_lt w.isLt, BitVec.ofNat_toNat, BitVec.setWidth_eq]
  refine (State.guardRead_ok _ _ _ _ (withFetchWord_admits s 32 w.toNat)).trans (congrArg _ ?_)
  exact (Memory.readLE_four ..).trans ((Memory.wordAt_writeLE _ _ _ wf).trans placed)

/-- Settles O53: the four bytes are read back, Running and admitted, and no other byte was written. -/
theorem placedWordIsFetchedNext : Obligations.PlacedWordIsFetchedNext := fun s w wf =>
  have fetched := fetch_withFetchWord w wf
  ⟨fetched, by simp only [step, State.withFetchWord] at fetched ⊢; rw [fetched],
    fun a outside => Memory.byteAt_writeLE_outside _ _ _ _ a outside⟩

/-! ### What the plain data can hold -/

/-- Every content of the first `n` bytes is that of a canonical memory: one byte after the other is inserted. -/
theorem exists_memory_upto (bytes : Nat → Byte) (n : Nat) (hn : n ≤ 2 ^ 32) :
    ∃ m : Memory, Memory.wf m = true ∧ ∀ a < n, Memory.lookup m a = bytes a := by
  induction n with
  | zero => exact ⟨[], rfl, fun a ha => absurd ha (Nat.not_lt_zero a)⟩
  | succ n ih =>
    obtain ⟨m, wf, holds⟩ := ih (by omega)
    refine ⟨Memory.insert m n (bytes n), Memory.wfFrom_insert m _ (Nat.zero_le n) (by omega) wf, fun a ha => ?_⟩
    by_cases last : a = n
    · rw [last, Memory.lookup_insert_self m n _ wf]
    · rw [Memory.lookup_insert_of_ne m _ last, holds a (by omega)]

theorem exists_memory (bytes : Word → Byte) :
    ∃ m : Memory, Memory.wf m = true ∧ ∀ a, Memory.byteAt m a = bytes a := by
  obtain ⟨m, wf, holds⟩ := exists_memory_upto (fun a => bytes (BitVec.ofNat 32 a)) (2 ^ 32) (Nat.le_refl _)
  refine ⟨m, wf, fun a => (holds a.toNat a.isLt).trans ?_⟩
  rw [BitVec.ofNat_toNat, BitVec.setWidth_eq]

/-- The rule that refuses one access alone. -/
def refuseOnly (kind : AccessKind) (a : Word) (width : Width) : DenyRule := .range kind width a a

theorem refuseOnly_refuses (kind kind' : AccessKind) (a a' : Word) (width width' : Width) :
    (refuseOnly kind a width).refuses kind' a' width' = true ↔ kind = kind' ∧ a = a' ∧ width = width' := by
  have between : a.toNat ≤ a'.toNat ∧ a'.toNat ≤ a.toNat ↔ a = a' := by
    rw [BitVec.toNat_eq]
    omega
  simp only [refuseOnly, DenyRule.refuses, Bool.and_eq_true, beq_iff_eq, decide_eq_true_eq, ← between]
  tauto

/-- Every address, in order; no code is made for it, which would list all 2^32. -/
noncomputable def everyAddress : List Word := (List.finRange (2 ^ 32)).map BitVec.ofFin

theorem mem_everyAddress (a : Word) : a ∈ everyAddress :=
  List.mem_map.mpr ⟨a.toFin, List.mem_finRange _, rfl⟩

/-- The deny list of an admission predicate: one rule for each access refused. -/
noncomputable def denyList (admitted : AccessKind → Word → Width → Bool) : List DenyRule :=
  [AccessKind.read, .write].flatMap fun kind => [Width.byte, .half, .word].flatMap fun width =>
    (everyAddress.filter fun a => !admitted kind a width).map fun a => refuseOnly kind a width

theorem mem_denyList {admitted : AccessKind → Word → Width → Bool} {rule : DenyRule} :
    rule ∈ denyList admitted ↔ ∃ kind a width, admitted kind a width = false ∧ rule = refuseOnly kind a width := by
  have kinds (kind : AccessKind) : kind ∈ [AccessKind.read, .write] := by cases kind <;> decide
  have widths (width : Width) : width ∈ [Width.byte, .half, .word] := by cases width <;> decide
  simp only [denyList, List.mem_flatMap, List.mem_map, List.mem_filter, kinds, widths, mem_everyAddress, true_and,
    Bool.not_eq_true']
  constructor
  · rintro ⟨kind, width, a, refused, rfl⟩
    exact ⟨kind, a, width, refused, rfl⟩
  · rintro ⟨kind, a, width, refused, rfl⟩
    exact ⟨kind, width, a, refused, rfl⟩

theorem admits_denyList {admitted : AccessKind → Word → Width → Bool} {s : State} (deny : s.deny = denyList admitted)
    (kind : AccessKind) (a : Word) (width : Width) : s.admits kind a width = admitted kind a width := by
  rw [Bool.eq_iff_iff, State.admits, deny, List.all_eq_true]
  constructor
  · intro passes
    by_contra refused
    have passed := passes _ (mem_denyList.mpr ⟨kind, a, width, by simpa using refused, rfl⟩)
    rw [(refuseOnly_refuses ..).mpr ⟨rfl, rfl, rfl⟩] at passed
    cases passed
  · intro admits rule listed
    obtain ⟨kind', a', width', refused, rfl⟩ := mem_denyList.mp listed
    rw [Bool.not_eq_true', Bool.eq_false_iff]
    intro refuses
    obtain ⟨rfl, rfl, rfl⟩ := (refuseOnly_refuses ..).mp refuses
    cases refused.symm.trans admits

/-- Settles O20: a content is inserted byte by byte, and a predicate is listed access by access. -/
theorem everyMemoryCollaboratorIsAState : Obligations.EveryMemoryCollaboratorIsAState :=
  ⟨exists_memory, fun admitted => ⟨denyList admitted, fun _ => admits_denyList⟩⟩

/-- A canonical memory that reads as nothing is empty. -/
theorem Memory.eq_nil_of_lookup {m : Memory} {lo : Nat} (wf : Memory.wfFrom lo m = true)
    (blank : ∀ a < 2 ^ 32, Memory.lookup m a = Config.unlistedByte) : m = [] := by
  cases m with
  | nil => rfl
  | cons cell rest =>
    obtain ⟨k, v⟩ := cell
    simp only [Memory.wfFrom, Bool.and_eq_true, decide_eq_true_eq, bne_iff_ne] at wf
    exact absurd (by simpa [Memory.lookup] using blank k wf.1.1.2) wf.1.2

/-- The first cell of a canonical memory holds a listed byte, so a canonical memory that reads alike begins no later. -/
theorem Memory.firstCell_le {k k' lo : Nat} {v v' : Byte} {rest rest' : Memory}
    (wf : Memory.wfFrom lo ((k, v) :: rest) = true) (wf' : Memory.wfFrom lo ((k', v') :: rest') = true)
    (alike : ∀ a < 2 ^ 32, Memory.lookup ((k, v) :: rest) a = Memory.lookup ((k', v') :: rest') a) : k' ≤ k := by
  simp only [Memory.wfFrom, Bool.and_eq_true, decide_eq_true_eq, bne_iff_ne] at wf wf'
  obtain ⟨⟨⟨-, inSpace⟩, listed⟩, -⟩ := wf
  obtain ⟨-, above⟩ := wf'
  by_contra below
  have blank := alike k inSpace
  rw [Memory.lookup, Memory.lookup, if_pos rfl, if_neg (by omega),
    Memory.lookup_of_lt rest' above (by omega)] at blank
  exact listed blank

/-- Canonical memories that read alike have the same first cell, and rests that read alike. -/
theorem Memory.eq_of_lookup {m m' : Memory} {lo : Nat} (wf : Memory.wfFrom lo m = true)
    (wf' : Memory.wfFrom lo m' = true) (alike : ∀ a < 2 ^ 32, Memory.lookup m a = Memory.lookup m' a) : m = m' := by
  induction m generalizing m' lo with
  | nil => exact (Memory.eq_nil_of_lookup wf' fun a ha => (alike a ha).symm).symm
  | cons cell rest ih =>
    cases m' with
    | nil => exact Memory.eq_nil_of_lookup wf alike
    | cons cell' rest' =>
      obtain ⟨k, v⟩ := cell
      obtain ⟨k', v'⟩ := cell'
      obtain rfl : k = k' := Nat.le_antisymm (Memory.firstCell_le wf' wf fun a ha => (alike a ha).symm)
        (Memory.firstCell_le wf wf' alike)
      simp only [Memory.wfFrom, Bool.and_eq_true, decide_eq_true_eq] at wf wf'
      obtain ⟨⟨⟨-, inSpace⟩, -⟩, above⟩ := wf
      obtain ⟨-, above'⟩ := wf'
      have first : v = v' := by simpa [Memory.lookup] using alike k inSpace
      have rests : rest = rest' := ih above above' fun a ha => by
        by_cases below : a < k + 1
        · rw [Memory.lookup_of_lt rest above below, Memory.lookup_of_lt rest' above' below]
        · have other : a ≠ k := by omega
          simpa [Memory.lookup, other] using alike a ha
      rw [first, rests]

/-- Settles O21: by the lists' first cells. -/
theorem canonicalMemoriesThatReadAlikeAreEqual : Obligations.CanonicalMemoriesThatReadAlikeAreEqual := by
  intro m m' wf wf' alike
  refine Memory.eq_of_lookup wf wf' fun a ha => ?_
  have same := alike (BitVec.ofNat 32 a)
  rwa [Memory.byteAt, Memory.byteAt, BitVec.toNat_ofNat, Nat.mod_eq_of_lt ha] at same

end Sys2Proof.Machine

/-! The disassembler family: the text of each shape from its operands, where the text is `unknown`, decimal text,
ASCII and truncation (R270 to R289). -/

namespace Sys2Proof.Machine

/-! ### Numbers (R274) -/

theorem signedDecimal_eq (v : Int) : signedDecimal v = Claims.signed v := by
  unfold signedDecimal Claims.signed decimal
  split
  · rfl
  · next nonneg => rw [show v.natAbs = v.toNat by omega]

theorem signedDecimal_sext12 (imm : BitVec 12) : signedDecimal (sext12 imm).toInt = Claims.signed imm.toInt := by
  rw [toInt_sext12, signedDecimal_eq]

theorem signedDecimal_sext13 (offset : BitVec 13) :
    signedDecimal (sext13 offset).toInt = Claims.signed offset.toInt := by
  rw [sext13, BitVec.toInt_signExtend_of_le (by decide), signedDecimal_eq]

theorem signedDecimal_sext21 (offset : BitVec 21) :
    signedDecimal (sext21 offset).toInt = Claims.signed offset.toInt := by
  rw [sext21, BitVec.toInt_signExtend_of_le (by decide), signedDecimal_eq]

theorem decimal_shift (imm : BitVec 12) :
    decimal (sext12 imm &&& 0x1f#32).toNat = Nat.toDigits 10 (imm.toNat % 32) :=
  congrArg decimal (immShiftAmount_eq imm)

/-- Shifting the placed field back gives the field (R281). -/
theorem toNat_upper20_shift (imm20 : BitVec 20) : (upper20 imm20 >>> 12).toNat = imm20.toNat := by
  rw [BitVec.toNat_ushiftRight, upper20_eq_ofNat, BitVec.toNat_ofNat, Nat.shiftRight_eq_div_pow]
  omega

/-! ### The text of each shape (R275 to R284) -/

/-- The text of the word of a well-formed instruction is the text of the instruction (R271). -/
theorem disassembleFull_encode (a : Word) {i : Instr} (wf : i.wellFormed = true) :
    disassembleFull a (encode i) = instrText i :=
  congrArg decodedText (Laws.decode_encode wf)

theorem textR_eq (i : Instr) (rd rs1 rs2 : Reg) : textR i rd rs1 rs2 =
    i.mnemonic ++ [' '] ++ Claims.x rd ++ [',', ' '] ++ Claims.x rs1 ++ [',', ' '] ++ Claims.x rs2 := by
  simp [textR, line, comma, regText, Claims.x, decimal]

theorem textI_eq (i : Instr) (rd rs1 : Reg) (imm : BitVec 12) : textI i rd rs1 imm =
    i.mnemonic ++ [' '] ++ Claims.x rd ++ [',', ' '] ++ Claims.x rs1 ++ [',', ' '] ++ Claims.signed imm.toInt := by
  simp [textI, line, comma, regText, Claims.x, decimal, signedDecimal_sext12]

theorem textShift_eq (i : Instr) (rd rs1 : Reg) (imm : BitVec 12) : textShift i rd rs1 imm =
    i.mnemonic ++ [' '] ++ Claims.x rd ++ [',', ' '] ++ Claims.x rs1 ++ [',', ' '] ++
      Nat.toDigits 10 (imm.toNat % 32) := by
  rw [textShift, decimal_shift]
  simp [line, comma, regText, Claims.x, decimal]

theorem textMemory_eq (i : Instr) (reg base : Reg) (imm : BitVec 12) : textMemory i reg base imm =
    i.mnemonic ++ [' '] ++ Claims.x reg ++ [',', ' '] ++ Claims.signed imm.toInt ++ ['('] ++ Claims.x base ++
      [')'] := by
  simp [textMemory, memoryText, line, comma, regText, Claims.x, decimal, signedDecimal_sext12]

theorem textBranch_eq (i : Instr) (rs1 rs2 : Reg) (offset : BitVec 13) : textBranch i rs1 rs2 offset =
    i.mnemonic ++ [' '] ++ Claims.x rs1 ++ [',', ' '] ++ Claims.x rs2 ++ [',', ' '] ++ Claims.signed offset.toInt := by
  simp [textBranch, line, comma, regText, Claims.x, decimal, signedDecimal_sext13]

theorem textUpper_eq (i : Instr) (rd : Reg) (imm20 : BitVec 20) : textUpper i rd imm20 =
    i.mnemonic ++ [' '] ++ Claims.x rd ++ [',', ' ', '0', 'x'] ++ Nat.toDigits 16 imm20.toNat := by
  rw [textUpper, toNat_upper20_shift]
  simp [line, comma, regText, Claims.x, decimal, hexText]

theorem textJal_eq (i : Instr) (rd : Reg) (offset : BitVec 21) : textJal i rd offset =
    i.mnemonic ++ [' '] ++ Claims.x rd ++ [',', ' '] ++ Claims.signed offset.toInt := by
  simp [textJal, line, comma, regText, Claims.x, decimal, signedDecimal_sext21]

/-- Settles O49: each family is one shape, and its well-formed words decode to their instructions. -/
theorem disassemblyTextOfEachFamily : Obligations.DisassemblyTextOfEachFamily := by
  intro a rd rs1 rs2 imm imm20
  simp only [List.forall_mem_cons]
  refine ⟨?register, ?immediate, ?shift, ?memory, ?store, fun offset => ?branch, ?upper, fun offset wf => ?jal, rfl⟩
  case register =>
    refine ⟨?_, ?_, ?_, ?_, ?_, ?_, ?_, ?_, ?_, ?_, by simp⟩
    all_goals exact (disassembleFull_encode a rfl).trans (textR_eq _ rd rs1 rs2)
  case immediate =>
    refine ⟨?_, ?_, ?_, ?_, ?_, ?_, by simp⟩
    all_goals exact (disassembleFull_encode a rfl).trans (textI_eq _ rd rs1 imm)
  case shift =>
    refine ⟨fun wf => ?_, fun wf => ?_, fun wf => ?_, by simp⟩
    all_goals exact (disassembleFull_encode a wf).trans (textShift_eq _ rd rs1 imm)
  case memory =>
    refine ⟨?_, ?_, ?_, ?_, ?_, ?_, by simp⟩
    all_goals exact (disassembleFull_encode a rfl).trans (textMemory_eq _ rd rs1 imm)
  case store =>
    refine ⟨?_, ?_, ?_, by simp⟩
    all_goals exact (disassembleFull_encode a rfl).trans (textMemory_eq _ rs2 rs1 imm)
  case branch =>
    refine ⟨fun wf => ?_, fun wf => ?_, fun wf => ?_, fun wf => ?_, fun wf => ?_, fun wf => ?_, by simp⟩
    all_goals exact (disassembleFull_encode a wf).trans (textBranch_eq _ rs1 rs2 offset)
  case upper =>
    refine ⟨?_, ?_, by simp⟩
    all_goals exact (disassembleFull_encode a rfl).trans (textUpper_eq _ rd imm20)
  case jal => exact (disassembleFull_encode a wf).trans (textJal_eq _ rd offset)

/-! ### Where the text is `unknown` (R285, R286) -/

/-- A line has a space, and `unknown` has none. -/
theorem line_ne_unknownText (i : Instr) (operands : Text) : line i operands ≠ unknownText := by
  intro same
  have space : ' ' ∈ unknownText := same ▸ by simp [line]
  exact absurd space (by decide)

/-- The six M instructions, of some operands (R286). -/
def IsMultiplyDivide (i : Instr) : Prop :=
  ∃ rd rs1 rs2, i ∈ [Instr.mul rd rs1 rs2, .mulh rd rs1 rs2, .div rd rs1 rs2, .divu rd rs1 rs2, .rem rd rs1 rs2,
    .remu rd rs1 rs2]

theorem instrText_eq_unknownText_iff (i : Instr) : instrText i = unknownText ↔ IsMultiplyDivide i := by
  refine ⟨fun unknown => ?_, ?_⟩
  · cases i with
    | mul rd rs1 rs2 | mulh rd rs1 rs2 | div rd rs1 rs2 | divu rd rs1 rs2 | rem rd rs1 rs2 | remu rd rs1 rs2 =>
      exact ⟨rd, rs1, rs2, by simp⟩
    | ecall => exact absurd unknown (by decide)
    | _ => exact absurd unknown (line_ne_unknownText _ _)
  · rintro ⟨rd, rs1, rs2, listed⟩
    simp only [List.mem_cons, List.not_mem_nil, or_false] at listed
    rcases listed with rfl | rfl | rfl | rfl | rfl | rfl <;> rfl

/-- Settles O50: the text is a function of the decoding, and among the instructions only the six M ones have no line. -/
theorem unknownAndMultiplyWordsPrintUnknown : Obligations.UnknownAndMultiplyWordsPrintUnknown := by
  refine ⟨fun a w => ?_, fun _ _ _ _ same => congrArg decodedText same⟩
  show decodedText (decode w) = unknownText ↔ _
  cases decode w with
  | unknown => exact iff_of_true rfl (.inl rfl)
  | instr i =>
    rw [show decodedText (.instr i) = instrText i from rfl, instrText_eq_unknownText_iff]
    simp [IsMultiplyDivide]

/-! ### Decimal text (R274) -/

theorem isDigit_iff (c : Char) : c.isDigit = true ↔ '0' ≤ c ∧ c ≤ '9' := by
  simp [Char.isDigit, Char.le_def]

/-- Only zero's digits begin with 0: the first digit is the last quotient, and that is not 0. -/
theorem eq_zero_of_head_toDigits (n : Nat) (zero : (Nat.toDigits 10 n).head? = some '0') : n = 0 := by
  induction n using Nat.strongRecOn with
  | ind n ih =>
    rw [Nat.toDigits_eq_if (by decide)] at zero
    split at zero
    · simpa using zero
    · next big =>
      rw [List.head?_append_of_ne_nil _ Nat.toDigits_ne_nil] at zero
      have := ih (n / 10) (by omega) zero
      omega

/-- Settles O51: the library reads the digits back, and the first one is not 0. -/
theorem decimalTextReadsBack : Obligations.DecimalTextReadsBack := fun n =>
  ⟨Nat.ofDigitChars_ten_toDigits,
    fun c listed => (isDigit_iff c).mp (Nat.isDigit_of_mem_toDigits (by decide) (by decide) listed),
    eq_zero_of_head_toDigits n⟩

/-! ### ASCII and truncation (R287, R288) -/

/-- Every character is ASCII. -/
def Ascii (text : Text) : Prop := ∀ c ∈ text, c.toNat < 128

theorem Ascii.append {text text' : Text} (ascii : Ascii text) (ascii' : Ascii text') : Ascii (text ++ text') :=
  fun c listed => (List.mem_append.mp listed).elim (ascii c) (ascii' c)

theorem ascii_singleton {c : Char} (only : c.toNat < 128) : Ascii [c] := List.forall_mem_singleton.mpr only

theorem Ascii.cons {c : Char} {text : Text} (first : c.toNat < 128) (ascii : Ascii text) : Ascii (c :: text) :=
  List.forall_mem_cons.mpr ⟨first, ascii⟩

theorem toNat_digitChar_lt (n : Nat) : n.digitChar.toNat < 128 := by
  have digits : ∀ k < 16, k.digitChar.toNat < 128 := by decide
  by_cases digit : n < 16
  · exact digits n digit
  · rw [Nat.digitChar_eq_star.mpr (Nat.not_lt.mp digit)]
    decide

theorem ascii_toDigits {b : Nat} (hb : 1 < b) (n : Nat) : Ascii (Nat.toDigits b n) := by
  induction n using Nat.strongRecOn with
  | ind n ih =>
    have last (k : Nat) : Ascii [k.digitChar] := ascii_singleton (toNat_digitChar_lt k)
    rw [Nat.toDigits_eq_if hb]
    split
    · exact last n
    · exact (ih _ (Nat.div_lt_self (by omega) hb)).append (last _)

theorem ascii_decimal (n : Nat) : Ascii (decimal n) := ascii_toDigits (by decide) n

theorem ascii_signedDecimal (v : Int) : Ascii (signedDecimal v) := by
  unfold signedDecimal
  split
  · exact .cons (by decide) (ascii_decimal _)
  · exact ascii_decimal _

theorem ascii_regText (r : Reg) : Ascii (regText r) := .cons (by decide) (ascii_decimal _)

theorem ascii_comma : Ascii comma := by simp [Ascii, comma]

theorem ascii_mnemonic (i : Instr) : Ascii i.mnemonic := by
  cases i <;> simp [Ascii, Instr.mnemonic]

theorem Ascii.line (i : Instr) {operands : Text} (ascii : Ascii operands) : Ascii (line i operands) :=
  ((ascii_mnemonic i).append (ascii_singleton (by decide))).append ascii

theorem ascii_unknownText : Ascii unknownText := by simp [Ascii, unknownText]

theorem ascii_memoryText (displacement : Word) (base : Reg) : Ascii (memoryText displacement base) :=
  (((ascii_signedDecimal _).append (ascii_singleton (by decide))).append (ascii_regText base)).append
    (ascii_singleton (by decide))

/-- The text of every instruction is ASCII, shape by shape (R287). -/
theorem ascii_instrText (i : Instr) : Ascii (instrText i) := by
  have reg (r : Reg) {operands : Text} (ascii : Ascii operands) : Ascii (regText r ++ comma ++ operands) :=
    ((ascii_regText r).append ascii_comma).append ascii
  have regs (r r' : Reg) {operands : Text} (ascii : Ascii operands) :
      Ascii (regText r ++ comma ++ regText r' ++ comma ++ operands) :=
    ((reg r (ascii_regText r')).append ascii_comma).append ascii
  cases i with
  | add | sub | sll | slt | sltu | xor | srl | sra | or | and => exact .line _ (regs _ _ (ascii_regText _))
  | mul | mulh | div | divu | rem | remu => exact ascii_unknownText
  | addi | slti | sltiu | xori | ori | andi => exact .line _ (regs _ _ (ascii_signedDecimal _))
  | slli | srli | srai => exact .line _ (regs _ _ (ascii_decimal _))
  | lb | lh | lw | lbu | lhu | sb | sh | sw | jalr => exact .line _ (reg _ (ascii_memoryText _ _))
  | beq | bne | blt | bge | bltu | bgeu => exact .line _ (regs _ _ (ascii_signedDecimal _))
  | lui | auipc => exact .line _ (reg _ (.cons (by decide) (.cons (by decide) (ascii_toDigits (by decide) _))))
  | jal => exact .line _ (reg _ (ascii_signedDecimal _))
  | ecall => exact ascii_mnemonic .ecall

theorem ascii_disassembleFull (a w : Word) : Ascii (disassembleFull a w) := by
  show Ascii (decodedText (decode w))
  cases decode w with
  | instr i => exact ascii_instrText i
  | unknown => exact ascii_unknownText

/-- Settles O52: by the laws of `take`, the shapes of the texts, and a text that does not use the address. -/
theorem truncationKeepsTheFirstCharacters : Obligations.TruncationKeepsTheFirstCharacters := fun a _ w maxlen =>
  ⟨⟨_, (List.take_append_drop maxlen (disassembleFull a w)).symm⟩, List.length_take, List.take_of_length_le,
    ascii_disassembleFull a w, rfl⟩

end Sys2Proof.Machine
